-- ==== Sys2Proof/Word.lean ====
section
/-! DEFINITION. The word types of FV1DEC: the byte of the program buffer, the 32-bit container, the
24-bit instruction inside it, the 7-bit slot index (spec 00_scope R6, R7; 10_state R22). -/

namespace Sys2Proof

/-- One byte of the program buffer (R40). -/
abbrev Byte := BitVec 8

/-- The InstructionWord: the 32-bit container of one slot (R22). Bit 0 is the least significant (R7). -/
abbrev Word := BitVec 32

/-- `insn = word[23:0]`, the significant bits of the container (R7, R61). -/
abbrev Insn := BitVec 24

/-- A program address: the slot index, 0 to 127 (R22, R33). -/
abbrev Slot := BitVec 7

end Sys2Proof
end

