-- ==== Sys2Proof/Config.lean ====
section
/-! DEFINITION. The implementation parameters of 00_scope R6, the fixed-point formats of 30_encoding R65
and the shapes of the opcode table's entries. Field positions, opcode numbers and names stand in
Machine/Table.lean and Machine/Names.lean, the rest of the configuration layer that
92_eei_decisions.md asks for. What the spec itself decided is followed as stated (log 13). -/

namespace Sys2Proof

/-- Order of the four bytes of a slot (R44, D4). -/
inductive ByteOrder where
  | big
  | little
  deriving DecidableEq, Repr

/-- A two's complement fixed-point format: `width` bits of which `fbits` are fraction bits (R9). -/
structure FixedFormat where
  width : Nat
  fbits : Nat
  deriving DecidableEq, Repr

/-- The place of an operand field: `insn[hi:lo]` (R7, R26). -/
structure Field where
  hi : Nat
  lo : Nat
  deriving DecidableEq, Repr

/-- `W = hi - lo + 1` (R26). -/
def Field.width (f : Field) : Nat := f.hi - f.lo + 1

/-- The kinds of an operand field (R26, R64). -/
inductive OperandKind where
  | none
  | uint
  | sint
  | frac
  | reg
  | flags
  | daddr
  | enum
  deriving DecidableEq, Repr

/-- The names tables (R26; contents R28 to R32). -/
inductive NamesTable where
  | none
  | regs
  | skpFlags
  | choFlags
  | lfo2s
  | lfo2r
  | lfo4
  | rampAmp
  deriving DecidableEq, Repr

/-- An operand field descriptor of the opcode table: `(kind, hi, lo, fbits, table)` of R62. -/
structure Descriptor where
  kind : OperandKind
  field : Field
  fbits : Nat
  table : NamesTable
  deriving DecidableEq, Repr

namespace Config

/-! The group fixed by the source (R6). -/

def containerW : Nat := 32
def insnW : Nat := 24
def nslots : Nat := 128
def slotBytes : Nat := 4
def progBytes : Nat := 512
def addrMin : Int := 0
def addrMax : Int := 127
def nbankProgs : Nat := 8
def opcW : Nat := 5

/-! The group fixed by decision (R6; D4, D8 to D14, D20, D21). -/

def addrW : Nat := 7
def targetW : Nat := 9
def regW : Nat := 6
def kmW : Nat := 13
def kmF : Nat := 11
def kdW : Nat := 10
def kdF : Nat := 8
def daddrW : Nat := 9
def sofdW : Nat := 6
def sofdF : Nat := 5
def logdW : Nat := 6
def logdF : Nat := 1
def chodW : Nat := 9
def chodF : Nat := 8
def maskW : Nat := 19
def skpfW : Nat := 5
def skpoW : Nat := 8
def maxOpnds : Nat := 3

/-- `BYTE_ORDER` (R6, R44): big. -/
def byteOrder : ByteOrder := .big

/-- S1.11, the multiply coefficient (R65). -/
def s1p11 : FixedFormat := ⟨kmW, kmF⟩

/-- S1.8, the delay coefficient (R65). -/
def s1p8 : FixedFormat := ⟨kdW, kdF⟩

/-- S.5, the offset of SOF and EXP (R65). -/
def s0p5 : FixedFormat := ⟨sofdW, sofdF⟩

/-- S4.1, the offset of LOG (R65). -/
def s4p1 : FixedFormat := ⟨logdW, logdF⟩

/-- S.8, the offset of CHO SOF (R65). -/
def s0p8 : FixedFormat := ⟨chodW, chodF⟩

end Config

end Sys2Proof
end

