-- ==== Sys2Proof/Syntax.lean ====
section
/-! DEFINITION. The decoded operations (OpId, 10_state R25), the instructions as syntax (one constructor
per mnemonic of spec/opcode_table.json, operands as the field bits of 30_encoding R66 to R71), and the
assembler short forms of R90. -/

namespace Sys2Proof

/-- OpId, the identifier of a decoded operation (R25). `nop` occurs on `op_out` only. -/
inductive OpId where
  | rda | rmpa | wra | wrap
  | rdax | rdfx | wrax | wrhx | wrlx | maxx | mulx
  | log | exp | sof | and | or | xor
  | skp
  | wlds | wldr | jam | choRda | choSof | choRdal
  | raw
  | nop
  deriving DecidableEq, Repr

/-- An instruction of the opcode table with its operand fields, in assembler order (R72). The four RAW
rows of the table share the constructor `raw`, which carries the full raw word (R150; log 8). NOP has no
encoding and so no constructor (R152). -/
inductive Instr where
  /-- RDA daddr, k (R100) -/
  | rda (daddr : BitVec 9) (k : BitVec 10)
  /-- RMPA k (R101) -/
  | rmpa (k : BitVec 10)
  /-- WRA daddr, k (R102) -/
  | wra (daddr : BitVec 9) (k : BitVec 10)
  /-- WRAP daddr, k (R103) -/
  | wrap (daddr : BitVec 9) (k : BitVec 10)
  /-- RDAX reg, k (R110) -/
  | rdax (reg : BitVec 6) (k : BitVec 13)
  /-- RDFX reg, k (R111) -/
  | rdfx (reg : BitVec 6) (k : BitVec 13)
  /-- WRAX reg, k (R112) -/
  | wrax (reg : BitVec 6) (k : BitVec 13)
  /-- WRHX reg, k (R113) -/
  | wrhx (reg : BitVec 6) (k : BitVec 13)
  /-- WRLX reg, k (R114) -/
  | wrlx (reg : BitVec 6) (k : BitVec 13)
  /-- MAXX reg, k (R115) -/
  | maxx (reg : BitVec 6) (k : BitVec 13)
  /-- MULX reg (R116) -/
  | mulx (reg : BitVec 6)
  /-- LOG k, d (R120) -/
  | log (k : BitVec 13) (d : BitVec 6)
  /-- EXP k, d (R121) -/
  | exp (k : BitVec 13) (d : BitVec 6)
  /-- SOF k, d (R122) -/
  | sof (k : BitVec 13) (d : BitVec 6)
  /-- AND mask (R123) -/
  | and (mask : BitVec 19)
  /-- OR mask (R124) -/
  | or (mask : BitVec 19)
  /-- XOR mask (R125) -/
  | xor (mask : BitVec 19)
  /-- SKP flags, offset (R130) -/
  | skp (flags : BitVec 5) (offset : BitVec 8)
  /-- WLDS n, f, a (R141) -/
  | wlds (n : BitVec 1) (f : BitVec 9) (a : BitVec 8)
  /-- WLDR n, f, a (R142) -/
  | wldr (n : BitVec 1) (f : BitVec 15) (a : BitVec 2)
  /-- JAM n (R143) -/
  | jam (n : BitVec 1)
  /-- CHO RDA, n, flags, daddr (R144) -/
  | choRda (n : BitVec 2) (flags : BitVec 6) (daddr : BitVec 9)
  /-- CHO SOF, n, flags, d (R145) -/
  | choSof (n : BitVec 2) (flags : BitVec 6) (d : BitVec 9)
  /-- CHO RDAL, n (R146) -/
  | choRdal (n : BitVec 2)
  /-- RAW, the unmatched word (R150) -/
  | raw (word : Word)
  deriving DecidableEq, Repr

/-- The operation an instruction is (R25, R62 `entry.op`). -/
def Instr.op : Instr → OpId
  | .rda _ _ => .rda
  | .rmpa _ => .rmpa
  | .wra _ _ => .wra
  | .wrap _ _ => .wrap
  | .rdax _ _ => .rdax
  | .rdfx _ _ => .rdfx
  | .wrax _ _ => .wrax
  | .wrhx _ _ => .wrhx
  | .wrlx _ _ => .wrlx
  | .maxx _ _ => .maxx
  | .mulx _ => .mulx
  | .log _ _ => .log
  | .exp _ _ => .exp
  | .sof _ _ => .sof
  | .and _ => .and
  | .or _ => .or
  | .xor _ => .xor
  | .skp _ _ => .skp
  | .wlds _ _ _ => .wlds
  | .wldr _ _ _ => .wldr
  | .jam _ => .jam
  | .choRda _ _ _ => .choRda
  | .choSof _ _ _ => .choSof
  | .choRdal _ => .choRdal
  | .raw _ => .raw

/-- The short forms FV-1 assemblers accept (R90). The decoder never prints one (R76). -/
inductive ShortForm where
  | clr
  | not
  | absa
  | ldax (reg : BitVec 6)
  | nop
  | jmp (offset : BitVec 8)
  deriving DecidableEq, Repr

end Sys2Proof
end

