-- ==== Sys2Proof/Machine/Table.lean ====
section
/-! DEFINITION. The opcode table, a constant of the block (10_state R23, R25; 30_encoding R61, R63, R66 to
R72; spec/opcode_table.json): field places, opcode numbers, operand descriptors and the 28 rows. -/

namespace Sys2Proof.Table

/-! ### Field places (R61, R66 to R71) -/

/-- `opcode[23:19]`, every format (R61). -/
def opcode : Field := ⟨23, 19⟩

def fdDaddr : Field := ⟨18, 10⟩
def fdK : Field := ⟨9, 0⟩

def frReg : Field := ⟨18, 13⟩
def frK : Field := ⟨12, 0⟩

def fsK : Field := ⟨18, 6⟩
def fsD : Field := ⟨5, 0⟩

def flMask : Field := ⟨18, 0⟩

def fpFlags : Field := ⟨18, 14⟩
def fpOffset : Field := ⟨13, 6⟩

/-- The bit that selects WLDS or WLDR under opcode 0x12 (R63, R140). -/
def lfoSelect : Field := ⟨18, 18⟩
def fwN : Field := ⟨17, 17⟩
def fwsF : Field := ⟨16, 8⟩
def fwsA : Field := ⟨7, 0⟩
def fwrF : Field := ⟨16, 2⟩
def fwrA : Field := ⟨1, 0⟩

def fjN : Field := ⟨18, 18⟩

/-- The two bits that select the CHO form under opcode 0x14 (R63, R140). -/
def choMode : Field := ⟨18, 17⟩
def choN : Field := ⟨16, 15⟩
def choFlags : Field := ⟨14, 9⟩
/-- The low field of CHO: the delay address of CHO RDA, the offset of CHO SOF (R71). -/
def choLow : Field := ⟨8, 0⟩

/-! ### Opcode numbers (R72) -/

/-- The 5-bit opcode value of an operation (R72). RAW and NOP have none of their own; the value given for
them is used by nothing. -/
def opcodeOf : OpId → BitVec 5
  | .rda => 0x00
  | .rmpa => 0x01
  | .wra => 0x02
  | .wrap => 0x03
  | .rdax => 0x04
  | .rdfx => 0x05
  | .wrax => 0x06
  | .wrhx => 0x07
  | .wrlx => 0x08
  | .maxx => 0x09
  | .mulx => 0x0A
  | .log => 0x0B
  | .exp => 0x0C
  | .sof => 0x0D
  | .and => 0x0E
  | .or => 0x0F
  | .xor => 0x10
  | .skp => 0x11
  | .wlds | .wldr => 0x12
  | .jam => 0x13
  | .choRda | .choSof | .choRdal => 0x14
  | .raw | .nop => 0x1F

/-- The 5-bit code of an OpId on the `op` and `op_out` ports (R25). -/
def opIdCode : OpId → BitVec 5
  | .rda => 0
  | .rmpa => 1
  | .wra => 2
  | .wrap => 3
  | .rdax => 4
  | .rdfx => 5
  | .wrax => 6
  | .wrhx => 7
  | .wrlx => 8
  | .maxx => 9
  | .mulx => 10
  | .log => 11
  | .exp => 12
  | .sof => 13
  | .and => 14
  | .or => 15
  | .xor => 16
  | .skp => 17
  | .wlds => 18
  | .wldr => 19
  | .jam => 20
  | .choRda => 21
  | .choSof => 22
  | .choRdal => 23
  | .raw => 24
  | .nop => 25

/-! ### Operand descriptors (R66 to R72) -/

def uint (f : Field) : Descriptor := ⟨.uint, f, 0, .none⟩
def sint (f : Field) : Descriptor := ⟨.sint, f, 0, .none⟩
def frac (f : Field) (fmt : FixedFormat) : Descriptor := ⟨.frac, f, fmt.fbits, .none⟩
def reg (f : Field) : Descriptor := ⟨.reg, f, 0, .regs⟩
def flags (f : Field) (t : NamesTable) : Descriptor := ⟨.flags, f, 0, t⟩
def daddr (f : Field) : Descriptor := ⟨.daddr, f, 0, .none⟩
def enum (f : Field) (t : NamesTable) : Descriptor := ⟨.enum, f, 0, t⟩

/-- The ordered operand field descriptors of an entry (R66 to R72); none for RAW (R150). -/
def descriptors : OpId → List Descriptor
  | .rda | .wra | .wrap => [daddr fdDaddr, frac fdK Config.s1p8]
  | .rmpa => [frac fdK Config.s1p8]
  | .rdax | .rdfx | .wrax | .wrhx | .wrlx | .maxx => [reg frReg, frac frK Config.s1p11]
  | .mulx => [reg frReg]
  | .log => [frac fsK Config.s1p11, frac fsD Config.s4p1]
  | .exp | .sof => [frac fsK Config.s1p11, frac fsD Config.s0p5]
  | .and | .or | .xor => [uint flMask]
  | .skp => [flags fpFlags .skpFlags, sint fpOffset]
  | .wlds => [enum fwN .lfo2s, uint fwsF, uint fwsA]
  | .wldr => [enum fwN .lfo2r, sint fwrF, enum fwrA .rampAmp]
  | .jam => [enum fjN .lfo2r]
  | .choRda => [enum choN .lfo4, flags choFlags .choFlags, daddr choLow]
  | .choSof => [enum choN .lfo4, flags choFlags .choFlags, frac choLow Config.s0p8]
  | .choRdal => [enum choN .lfo4]
  | .raw | .nop => []

/-! ### The rows of spec/opcode_table.json -/

/-- One row: a word is the row's when `word &&& mask = pattern`. -/
structure Row where
  op : OpId
  pattern : Word
  mask : Word
  deriving DecidableEq, Repr

/-- The row's test on a word (R150's "match and mask pairs"). -/
def rowMatches (r : Row) (word : Word) : Bool := word &&& r.mask == r.pattern

/-- The 20 rows of the opcodes 0x00 to 0x13. -/
def rowsLow : List Row := [
  ⟨.rda, 0x00000000, 0x00F80000⟩,
  ⟨.rmpa, 0x00080000, 0x00F80000⟩,
  ⟨.wra, 0x00100000, 0x00F80000⟩,
  ⟨.wrap, 0x00180000, 0x00F80000⟩,
  ⟨.rdax, 0x00200000, 0x00F80000⟩,
  ⟨.rdfx, 0x00280000, 0x00F80000⟩,
  ⟨.wrax, 0x00300000, 0x00F80000⟩,
  ⟨.wrhx, 0x00380000, 0x00F80000⟩,
  ⟨.wrlx, 0x00400000, 0x00F80000⟩,
  ⟨.maxx, 0x00480000, 0x00F80000⟩,
  ⟨.mulx, 0x00500000, 0x00F80000⟩,
  ⟨.log, 0x00580000, 0x00F80000⟩,
  ⟨.exp, 0x00600000, 0x00F80000⟩,
  ⟨.sof, 0x00680000, 0x00F80000⟩,
  ⟨.and, 0x00700000, 0x00F80000⟩,
  ⟨.or, 0x00780000, 0x00F80000⟩,
  ⟨.xor, 0x00800000, 0x00F80000⟩,
  ⟨.skp, 0x00880000, 0x00F80000⟩,
  ⟨.wlds, 0x00900000, 0x00FC0000⟩,
  ⟨.wldr, 0x00940000, 0x00FC0000⟩]

/-- The rows of JAM, CHO and the RAW set (R150). -/
def rowsHigh : List Row := [
  ⟨.jam, 0x00980000, 0x00F80000⟩,
  ⟨.choRda, 0x00A00000, 0x00FE0000⟩,
  ⟨.choSof, 0x00A40000, 0x00FE0000⟩,
  ⟨.choRdal, 0x00A60000, 0x00FE0000⟩,
  ⟨.raw, 0x00A20000, 0x00FE0000⟩,
  ⟨.raw, 0x00A80000, 0x00F80000⟩,
  ⟨.raw, 0x00B00000, 0x00F00000⟩,
  ⟨.raw, 0x00C00000, 0x00C00000⟩]

/-- The 28 rows of spec/opcode_table.json, in its order. -/
def rows : List Row := rowsLow ++ rowsHigh

end Sys2Proof.Table
end

