-- ==== Sys2Proof/WellFormed.lean ====
section
/-! DEFINITION. Which instruction terms stand for a word of the opcode map. Every operand field has the
width of its format, so every value of it is legal (R64: "No conversion can fail"); the one check is that
a RAW term carries a word of the RAW set (30_encoding R73). -/

namespace Sys2Proof

/-- The RAW set on `word`: `word[23:19] >= 0x15`, or `word[23:17] = 0b1010001` (R73, R150). -/
def unmatched (word : Word) : Bool :=
  decide (0x15 ≤ (word.extractLsb' 19 5).toNat) || (word.extractLsb' 17 7 == 0b1010001#7)

/-- An instruction is well-formed unless it is a RAW whose word matches an entry of the table (R73). -/
def Instr.wf : Instr → Bool
  | .raw word => unmatched word
  | .rda _ _ | .rmpa _ | .wra _ _ | .wrap _ _ => true
  | .rdax _ _ | .rdfx _ _ | .wrax _ _ | .wrhx _ _ | .wrlx _ _ | .maxx _ _ | .mulx _ => true
  | .log _ _ | .exp _ _ | .sof _ _ | .and _ | .or _ | .xor _ => true
  | .skp _ _ => true
  | .wlds _ _ _ | .wldr _ _ _ | .jam _ => true
  | .choRda _ _ _ | .choSof _ _ _ | .choRdal _ => true

end Sys2Proof
end

