-- ==== Sys2Proof/Decode.lean ====
section
/-! DEFINITION. From bytes to an instruction and back: byte order (20_memory R43, R44), dispatch (30_encoding
R61, R63, R72) and field extraction (R66 to R71); the encoder of 00_scope R12; the short forms of R90. -/

namespace Sys2Proof

/-! ### Bytes and the container -/

/-- The container made of the four bytes of a slot, in buffer order (R43); the order is `BYTE_ORDER` (D4). -/
def wordOfBytes (b0 b1 b2 b3 : Byte) : Word :=
  match Config.byteOrder with
  | .big => b0 ++ b1 ++ b2 ++ b3
  | .little => b3 ++ b2 ++ b1 ++ b0

/-- The four bytes of a container, in buffer order: `wordOfBytes` undone. -/
def bytesOfWord (word : Word) : List Byte :=
  match Config.byteOrder with
  | .big => [word.extractLsb' 24 8, word.extractLsb' 16 8, word.extractLsb' 8 8, word.extractLsb' 0 8]
  | .little => [word.extractLsb' 0 8, word.extractLsb' 8 8, word.extractLsb' 16 8, word.extractLsb' 24 8]

/-! ### Decode -/

/-- `word[hi:lo]` as a `w`-bit field; `w` is the field's width (R7). Bits 31 to 24 belong to no field. -/
def takeField (f : Field) (w : Nat) (word : Word) : BitVec w := word.extractLsb' f.lo w

/-- Opcode 0x12: bit 18 selects WLDS or WLDR (R63, R140). -/
def decodeWld (word : Word) : Instr :=
  if takeField Table.lfoSelect 1 word = 0 then
    .wlds (takeField Table.fwN 1 word) (takeField Table.fwsF 9 word) (takeField Table.fwsA 8 word)
  else
    .wldr (takeField Table.fwN 1 word) (takeField Table.fwrF 15 word) (takeField Table.fwrA 2 word)

/-- Opcode 0x14: bits 18:17 select CHO RDA (00), CHO SOF (10), CHO RDAL (11) or RAW (01) (R63, R140). -/
def decodeCho (word : Word) : Instr :=
  match takeField Table.choMode 2 word with
  | 0b00#2 => .choRda (takeField Table.choN 2 word) (takeField Table.choFlags 6 word) (takeField Table.choLow 9 word)
  | 0b10#2 => .choSof (takeField Table.choN 2 word) (takeField Table.choFlags 6 word) (takeField Table.choLow 9 word)
  | 0b11#2 => .choRdal (takeField Table.choN 2 word)
  | _ => .raw word

/-- The decoder: total on every word (R11); what matches no entry is RAW (R63, R73, R150). -/
def decode (word : Word) : Instr :=
  match takeField Table.opcode 5 word with
  | 0x00#5 => .rda (takeField Table.fdDaddr 9 word) (takeField Table.fdK 10 word)
  | 0x01#5 => .rmpa (takeField Table.fdK 10 word)
  | 0x02#5 => .wra (takeField Table.fdDaddr 9 word) (takeField Table.fdK 10 word)
  | 0x03#5 => .wrap (takeField Table.fdDaddr 9 word) (takeField Table.fdK 10 word)
  | 0x04#5 => .rdax (takeField Table.frReg 6 word) (takeField Table.frK 13 word)
  | 0x05#5 => .rdfx (takeField Table.frReg 6 word) (takeField Table.frK 13 word)
  | 0x06#5 => .wrax (takeField Table.frReg 6 word) (takeField Table.frK 13 word)
  | 0x07#5 => .wrhx (takeField Table.frReg 6 word) (takeField Table.frK 13 word)
  | 0x08#5 => .wrlx (takeField Table.frReg 6 word) (takeField Table.frK 13 word)
  | 0x09#5 => .maxx (takeField Table.frReg 6 word) (takeField Table.frK 13 word)
  | 0x0A#5 => .mulx (takeField Table.frReg 6 word)
  | 0x0B#5 => .log (takeField Table.fsK 13 word) (takeField Table.fsD 6 word)
  | 0x0C#5 => .exp (takeField Table.fsK 13 word) (takeField Table.fsD 6 word)
  | 0x0D#5 => .sof (takeField Table.fsK 13 word) (takeField Table.fsD 6 word)
  | 0x0E#5 => .and (takeField Table.flMask 19 word)
  | 0x0F#5 => .or (takeField Table.flMask 19 word)
  | 0x10#5 => .xor (takeField Table.flMask 19 word)
  | 0x11#5 => .skp (takeField Table.fpFlags 5 word) (takeField Table.fpOffset 8 word)
  | 0x12#5 => decodeWld word
  | 0x13#5 => .jam (takeField Table.fjN 1 word)
  | 0x14#5 => decodeCho word
  | _ => .raw word

/-- Why bytes do not make an instruction. -/
inductive DecodeReject where
  /-- Fewer than the four bytes of a slot: "a partial slot never reaches the block" (90_conflicts C8, R48). -/
  | partialSlot
  deriving DecidableEq, Repr

/-- The decoder on bytes in buffer order, with the bytes left over. It rejects a partial slot and nothing
else: every whole slot decodes (R60, R11). -/
def decodeBytes : List Byte → Except DecodeReject (Instr × List Byte)
  | b0 :: b1 :: b2 :: b3 :: rest => .ok (decode (wordOfBytes b0 b1 b2 b3), rest)
  | _ => .error .partialSlot

/-! ### Encode -/

/-- A field value at its place in the container, all other bits zero (R12). -/
def placeField (f : Field) {w : Nat} (v : BitVec w) : Word := v.setWidth 32 <<< f.lo

/-- The opcode of an operation at bits 23:19 (R61, R72). -/
def placeOpcode (op : OpId) : Word := placeField Table.opcode (Table.opcodeOf op)

/-- `encode` of R12: each operand's field value at its field place under the opcode, all other bits zero
(R75: unused bits are written as zeros). A RAW instruction carries its word and encodes to it (log 8). -/
def encode : Instr → Word
  | .rda daddr k => placeOpcode .rda ||| placeField Table.fdDaddr daddr ||| placeField Table.fdK k
  | .rmpa k => placeOpcode .rmpa ||| placeField Table.fdK k
  | .wra daddr k => placeOpcode .wra ||| placeField Table.fdDaddr daddr ||| placeField Table.fdK k
  | .wrap daddr k => placeOpcode .wrap ||| placeField Table.fdDaddr daddr ||| placeField Table.fdK k
  | .rdax r k => placeOpcode .rdax ||| placeField Table.frReg r ||| placeField Table.frK k
  | .rdfx r k => placeOpcode .rdfx ||| placeField Table.frReg r ||| placeField Table.frK k
  | .wrax r k => placeOpcode .wrax ||| placeField Table.frReg r ||| placeField Table.frK k
  | .wrhx r k => placeOpcode .wrhx ||| placeField Table.frReg r ||| placeField Table.frK k
  | .wrlx r k => placeOpcode .wrlx ||| placeField Table.frReg r ||| placeField Table.frK k
  | .maxx r k => placeOpcode .maxx ||| placeField Table.frReg r ||| placeField Table.frK k
  | .mulx r => placeOpcode .mulx ||| placeField Table.frReg r
  | .log k d => placeOpcode .log ||| placeField Table.fsK k ||| placeField Table.fsD d
  | .exp k d => placeOpcode .exp ||| placeField Table.fsK k ||| placeField Table.fsD d
  | .sof k d => placeOpcode .sof ||| placeField Table.fsK k ||| placeField Table.fsD d
  | .and mask => placeOpcode .and ||| placeField Table.flMask mask
  | .or mask => placeOpcode .or ||| placeField Table.flMask mask
  | .xor mask => placeOpcode .xor ||| placeField Table.flMask mask
  | .skp flags offset => placeOpcode .skp ||| placeField Table.fpFlags flags ||| placeField Table.fpOffset offset
  | .wlds n f a =>
    placeOpcode .wlds ||| placeField Table.lfoSelect 0#1 ||| placeField Table.fwN n ||| placeField Table.fwsF f
      ||| placeField Table.fwsA a
  | .wldr n f a =>
    placeOpcode .wldr ||| placeField Table.lfoSelect 1#1 ||| placeField Table.fwN n ||| placeField Table.fwrF f
      ||| placeField Table.fwrA a
  | .jam n => placeOpcode .jam ||| placeField Table.fjN n
  | .choRda n flags daddr =>
    placeOpcode .choRda ||| placeField Table.choMode 0b00#2 ||| placeField Table.choN n
      ||| placeField Table.choFlags flags ||| placeField Table.choLow daddr
  | .choSof n flags d =>
    placeOpcode .choSof ||| placeField Table.choMode 0b10#2 ||| placeField Table.choN n
      ||| placeField Table.choFlags flags ||| placeField Table.choLow d
  | .choRdal n => placeOpcode .choRdal ||| placeField Table.choMode 0b11#2 ||| placeField Table.choN n
  | .raw word => word

/-- The bits of the container that an operation's opcode, selecting bits and operand fields use (R75 lists
those that are unused); every bit of a RAW word is kept. -/
def usedBits : OpId → Word
  | .rda | .wra | .wrap => 0x00FFFFFF
  | .rmpa => 0x00F803FF
  | .rdax | .rdfx | .wrax | .wrhx | .wrlx | .maxx => 0x00FFFFFF
  | .mulx => 0x00FFE000
  | .log | .exp | .sof | .and | .or | .xor => 0x00FFFFFF
  | .skp => 0x00FFFFC0
  | .wlds | .wldr => 0x00FFFFFF
  | .jam => 0x00FC0000
  | .choRda | .choSof => 0x00FFFFFF
  | .choRdal => 0x00FF8000
  | .raw | .nop => 0xFFFFFFFF

/-- What an assembler short form expands to under this layout (R90). -/
def expandShort : ShortForm → Instr
  | .clr => .and 0
  | .not => .xor 0x7FFFF
  | .absa => .maxx 0 0
  | .ldax r => .rdfx r 0
  | .nop => .skp 0 0
  | .jmp offset => .skp 0 offset

/-! ### The host's table word -/

/-- The instruction the decoder reads from the container whose low `nbits` bits are `w` and whose other bits
are zero, laid out in buffer order and given to `decodeBytes`. -/
def decodeTableWord (nbits w : Nat) : Option Instr :=
  if nbits ≤ 32 then
    match decodeBytes (bytesOfWord (BitVec.ofNat 32 (w % 2 ^ nbits))) with
    | .ok (i, _) => some i
    | .error _ => none
  else none

end Sys2Proof
end

