-- ==== Sys2Proof/Machine/Names.lean ====
section
/-! DEFINITION. The names tables (10_state R28 to R32) and the fallback label of a register number without a
name (R28, D17). -/

namespace Sys2Proof.Machine

/-- The lower-case hex digits of `n`, zero-padded to `width`, without the prefix `0x` (R82). -/
def hexDigits (width n : Nat) : String :=
  let ds := Nat.toDigits 16 n
  String.ofList (List.replicate (width - ds.length) '0' ++ ds)

/-- Names table REGS (R28): none for 0x08 to 0x0F, 0x13 and 0x19 to 0x1F (16 values; log 12). -/
def regName (r : BitVec 6) : Option String :=
  match r.toNat with
  | 0x00 => some "SIN0_RATE"
  | 0x01 => some "SIN0_RANGE"
  | 0x02 => some "SIN1_RATE"
  | 0x03 => some "SIN1_RANGE"
  | 0x04 => some "RMP0_RATE"
  | 0x05 => some "RMP0_RANGE"
  | 0x06 => some "RMP1_RATE"
  | 0x07 => some "RMP1_RANGE"
  | 0x10 => some "POT0"
  | 0x11 => some "POT1"
  | 0x12 => some "POT2"
  | 0x14 => some "ADCL"
  | 0x15 => some "ADCR"
  | 0x16 => some "DACL"
  | 0x17 => some "DACR"
  | 0x18 => some "ADDR_PTR"
  | n => if 0x20 ≤ n then some ("REG" ++ toString (n - 0x20)) else none

/-- `name_REGS`: the name, or the fallback `0x` and two hex digits (R28, D17). -/
def regLabel (r : BitVec 6) : String :=
  match regName r with
  | some name => name
  | none => "0x" ++ hexDigits 2 r.toNat

/-- Names table SKPFLAGS, bit and name in canonical order, highest bit first (R29). -/
def skpFlagNames : List (Nat × String) :=
  [(4, "RUN"), (3, "ZRC"), (2, "ZRO"), (1, "GEZ"), (0, "NEG")]

/-- Names table CHOFLAGS, bit and name in canonical order, highest bit first (R30). -/
def choFlagNames : List (Nat × String) :=
  [(5, "NA"), (4, "RPTR2"), (3, "COMPA"), (2, "COMPC"), (1, "REG"), (0, "COS")]

/-- The names of a selector table by value: LFO2S, LFO2R, LFO4 (R31), RAMPAMP (R32). -/
def enumNames : NamesTable → List String
  | .lfo2s => ["SIN0", "SIN1"]
  | .lfo2r => ["RMP0", "RMP1"]
  | .lfo4 => ["SIN0", "SIN1", "RMP0", "RMP1"]
  | .rampAmp => ["4096", "2048", "1024", "512"]
  | .none | .regs | .skpFlags | .choFlags => []

/-- The bits and names of a flag table (R29, R30). -/
def flagNames : NamesTable → List (Nat × String)
  | .skpFlags => skpFlagNames
  | .choFlags => choFlagNames
  | .none | .regs | .lfo2s | .lfo2r | .lfo4 | .rampAmp => []

end Sys2Proof.Machine
end

