-- ==== Sys2Proof/Machine/State.lean ====
section
/-! DEFINITION. The machine's state as plain data: the ports and output record of the decoder block
(10_state R22, R24, R26), the program buffer (20_memory R40) and the data of the host, the Program
Disassembler (60_exceptions R171 to R180); the reasons a step can stop; the state after reset (R37). -/

namespace Sys2Proof.Machine

/-- One decoded operand field (R26). -/
structure Operand where
  kind : OperandKind
  /-- the field is `insn[hi:lo]` -/
  hi : Nat
  lo : Nat
  /-- the raw bits, zero-extended -/
  field : BitVec 19
  /-- the converted integer, two's complement -/
  num : BitVec 20
  /-- fraction bits of a FRAC operand; 0 for every other kind -/
  fbits : Nat
  table : NamesTable
  /-- for REG, whether the value has a name in REGS; true for other kinds -/
  named : Bool
  deriving DecidableEq, Repr

/-- The DecodedInstruction record, the block's output ports (R24). -/
structure Record where
  addr : Slot
  raw : Word
  op : OpId
  isRaw : Bool
  nopnd : Nat
  opnd0 : Operand
  opnd1 : Operand
  opnd2 : Operand
  isSkip : Bool
  /-- two's complement -/
  target : BitVec 9
  targetValid : Bool
  opOut : OpId
  nopndOut : Nat
  deriving DecidableEq, Repr

/-- The program buffer as (address, byte) pairs: addresses strictly rising, below 512, and no byte equal to
what an unlisted address reads as (R40; the form is `Memory.wf`, log 2). -/
abbrev Memory := List Host.Cell

/-- The host's options (R172). -/
structure Options where
  /-- emit numeric skip offsets instead of labels -/
  relative : Bool
  /-- render unmatched opcodes as `nop`; the only option that reaches the block -/
  suppressRaw : Bool
  /-- suppress non-fatal warnings -/
  quiet : Bool
  /-- bank-offset selector, consumed before the core sees the buffer -/
  program : Fin 8
  deriving DecidableEq, Repr

/-- One presentation of a slot to the block: the host chooses the slot and the value of `suppress_raw` (R171). -/
structure Presentation where
  addr : Slot
  suppressRaw : Bool
  deriving DecidableEq, Repr

/-- The host's next move (R174 to R180, R192; log 5). -/
inductive Phase where
  /-- obtain the 512 bytes of the selected program (R173, R192) -/
  | obtain
  /-- pass 1: present slots to the block (R174) and, when none is pending, pass 2 (R175) -/
  | decode
  /-- pass 3 (R179) -/
  | render
  /-- hand the text over and release what the run owns (R199) -/
  | release
  /-- the run has ended (R180) and owns nothing -/
  | finished
  deriving DecidableEq, Repr

/-- A warning on the diagnostic stream: a skip whose target lies outside 0 to 127 (R161 E2, R177). The
wording is not given (N15), so a warning is the data the block reports (log 9). -/
structure Warning where
  addr : Slot
  /-- `opnd[1].num` -/
  offset : BitVec 20
  /-- the exact out-of-range target -/
  target : BitVec 9
  deriving DecidableEq, Repr

/-- How a run ended (R177: "the run still succeeds overall (non-fatal) unless warnings are escalated by
caller policy"). -/
inductive RunResult where
  | running
  | succeeded
  | failed
  deriving DecidableEq, Repr

/-- The data of the Program Disassembler and the command line layer. -/
structure Disassembler where
  options : Options
  /-- caller policy: warnings are escalated (R177, 93 U4; log 10) -/
  escalate : Bool
  /-- the input buffer or bank image as supplied (R47, R173) -/
  image : List Byte
  phase : Phase
  /-- presentations still to make, first first (R171, R174) -/
  pending : List Presentation
  /-- the records of pass 1, in address order (R174) -/
  records : List Record
  /-- LabelTable, in order of first appearance (R175) -/
  labels : List (Slot × String)
  /-- the run's output text accumulator, one line per record (R179, R199) -/
  lines : List String
  /-- the disassembly output stream as handed over at the end of the run (R178, R180) -/
  output : List String
  /-- the diagnostic stream (R178) -/
  warnings : List Warning
  result : RunResult
  deriving DecidableEq, Repr

/-- The machine: the block's ports, its output record, the program buffer, the host. The block itself has
no architectural state (R20, R36). -/
structure State where
  /-- input port `word` (R22) -/
  word : Word
  /-- input port `addr` (R22, R33) -/
  addr : Slot
  /-- input port `suppress_raw` (R22, R35) -/
  suppressRaw : Bool
  /-- the output record (R24) -/
  out : Record
  /-- the program buffer (R40) -/
  mem : Memory
  /-- the host (R171) -/
  host : Disassembler
  deriving DecidableEq, Repr

/-- Why the machine stops. -/
inductive Fault where
  /-- E3 of R161: the image is "shorter than 512 bytes for the selected program", "a fatal input error,
  reported to the caller and aborting the run before any output is produced" (R48). Raised by the host when
  it obtains the program (`obtainProgram`), by nothing else. Safe: the spec itself aborts the run. -/
  | truncatedInput
  deriving DecidableEq, Repr

/-- Why an instruction has no meaning. -/
inductive Refusal where
  /-- An arm of `exec` whose instruction has no meaning yet. Raised by no arm of this model. Safe. -/
  | notModelled (mnemonic : String)
  deriving DecidableEq, Repr

/-- The null operand (R26). -/
def Operand.null : Operand := ⟨.none, 0, 0, 0, 0, 0, .none, true⟩

/-- The presentations of pass 1: every slot (R174), in ascending order and with one `suppress_raw`, which R171
leaves to the host (DESIGN CHOICE, log 5). -/
def allSlots (suppressRaw : Bool) : List Presentation :=
  (List.range Config.nslots).map fun a => ⟨BitVec.ofNat 7 a, suppressRaw⟩

/-- The record on the output ports after reset: the function of the inputs present (R37), which are the word
0x00000000 at slot 0 without raw suppression (DESIGN CHOICE, log 1), that is RDA 0,0.0 (R100). -/
def Record.reset : Record where
  addr := 0
  raw := 0
  op := .rda
  isRaw := false
  nopnd := 2
  opnd0 := ⟨.daddr, 18, 10, 0, 0, 0, .none, true⟩
  opnd1 := ⟨.frac, 9, 0, 0, 0, 8, .none, true⟩
  opnd2 := .null
  isSkip := false
  target := 0
  targetValid := false
  opOut := .rda
  nopndOut := 2

/-- The host before a run: its next move is to obtain the program, the first of the three things it "must do"
(R192), and nothing persists from an earlier run (R21). That no option is set and no input supplied is the
model's (DESIGN CHOICE, log 3). -/
def Disassembler.reset : Disassembler where
  options := ⟨false, false, false, 0⟩
  escalate := false
  image := []
  phase := .obtain
  pending := []
  records := []
  labels := []
  lines := []
  output := []
  warnings := []
  result := .running

/-- The machine after power-up. The block has no state and no reset input (R37, R190): the output record is
the function of the inputs; the input ports, the buffer and the host stand at the values of logs 1 to 3. -/
def State.reset : State where
  word := 0
  addr := 0
  suppressRaw := false
  out := .reset
  mem := []
  host := .reset

end Sys2Proof.Machine
end

