-- ==== Sys2Proof/Machine/Flags.lean ====
section
/-! DEFINITION. The one-bit outputs of the block and the FLAGS operand kind. The block has no flags and no
condition codes (10_state R34): what stands here are the status bits of the record, `is_raw` and
`target_valid` (60_exceptions R161), the raw-suppression stage (45_raw_nop R152), and the decomposition of
a flag mask into names (30_encoding R64). -/

namespace Sys2Proof.Machine

/-- `is_raw`: 1 exactly when `op = RAW` (R24). -/
def isRawOp (op : OpId) : Bool := op == .raw

/-- `target_valid` of a skip: `0 <= target <= 127` on the exact target (R132). -/
def targetInRange (target : BitVec 9) : Bool :=
  decide (Config.addrMin ≤ target.toInt) && decide (target.toInt ≤ Config.addrMax)

/-- `op_out`: NOP in place of RAW under raw suppression, else `op` (R152). -/
def suppressedOp (op : OpId) (suppressRaw : Bool) : OpId :=
  if op = .raw ∧ suppressRaw = true then .nop else op

/-- `nopnd_out`: 0 under NOP, else `nopnd` (R152). -/
def suppressedCount (opOut : OpId) (nopnd : Nat) : Nat :=
  if opOut = .nop then 0 else nopnd

/-- The names of the set bits of a flag mask, in the table's canonical order (R29, R30, R64). -/
def setFlagNames (table : NamesTable) (mask : BitVec 19) : List String :=
  (flagNames table).filterMap fun (bit, name) => if mask.getLsbD bit then some name else none

end Sys2Proof.Machine
end

