-- ==== Sys2Proof/Machine/Operands.lean ====
section
/-! DEFINITION. The operand kinds and their conversions (10_state R26; 30_encoding R64, R77, R78): one
constructor function per kind, and the value of an operand in the display domain. -/

namespace Sys2Proof.Machine

/-! ### Operand records by kind (R26, R64) -/

/-- UINT: the field's unsigned value (R64). -/
def Operand.uint (f : Field) {w : Nat} (v : BitVec w) : Operand :=
  ⟨.uint, f.hi, f.lo, v.setWidth 19, v.setWidth 20, 0, .none, true⟩

/-- SINT: `sext_W` of the field (R64, R77). -/
def Operand.sint (f : Field) {w : Nat} (v : BitVec w) : Operand :=
  ⟨.sint, f.hi, f.lo, v.setWidth 19, v.signExtend 20, 0, .none, true⟩

/-- FRAC: `sext_W` of the field over `2^fbits` (R64, R65, R78). -/
def Operand.frac (f : Field) (fmt : FixedFormat) {w : Nat} (v : BitVec w) : Operand :=
  ⟨.frac, f.hi, f.lo, v.setWidth 19, v.signExtend 20, fmt.fbits, .none, true⟩

/-- REG: the register number, and whether REGS names it (R26, R28). -/
def Operand.reg (f : Field) (v : BitVec 6) : Operand :=
  ⟨.reg, f.hi, f.lo, v.setWidth 19, v.setWidth 20, 0, .regs, (regName v).isSome⟩

/-- FLAGS: the mask, with its names table (R64). -/
def Operand.flags (f : Field) (table : NamesTable) {w : Nat} (v : BitVec w) : Operand :=
  ⟨.flags, f.hi, f.lo, v.setWidth 19, v.setWidth 20, 0, table, true⟩

/-- DADDR: the delay-memory address, unsigned, unbounded but for its width (R41, R64). -/
def Operand.daddr (f : Field) {w : Nat} (v : BitVec w) : Operand :=
  ⟨.daddr, f.hi, f.lo, v.setWidth 19, v.setWidth 20, 0, .none, true⟩

/-- ENUM: the selector's code, with its names table (R64). -/
def Operand.enum (f : Field) (table : NamesTable) {w : Nat} (v : BitVec w) : Operand :=
  ⟨.enum, f.hi, f.lo, v.setWidth 19, v.setWidth 20, 0, table, true⟩

/-! ### The display domain (R24, R26, R64) -/

/-- A value "already converted to display domain" (R24). -/
inductive DisplayValue where
  /-- the null operand shows nothing -/
  | nothing
  /-- UINT, SINT, DADDR -/
  | integer (n : Int)
  /-- FRAC: the exact rational `num / 2^fbits` -/
  | fraction (num : Int) (fbits : Nat)
  /-- REG and ENUM -/
  | name (text : String)
  /-- FLAGS: the names of the set bits, highest bit first -/
  | names (set : List String)
  deriving DecidableEq, Repr

/-- `name_table(field)` of REG and ENUM (R28, R31, R32). -/
def nameIn (table : NamesTable) (field : BitVec 19) : String :=
  match table with
  | .regs => regLabel (field.setWidth 6)
  | .lfo2s | .lfo2r | .lfo4 | .rampAmp | .none | .skpFlags | .choFlags => (enumNames table).getD field.toNat ""

/-- The display-domain value of an operand (R26, R64). -/
def Operand.display (o : Operand) : DisplayValue :=
  match o.kind with
  | .none => .nothing
  | .uint | .daddr | .sint => .integer o.num.toInt
  | .frac => .fraction o.num.toInt o.fbits
  | .reg | .enum => .name (nameIn o.table o.field)
  | .flags => .names (setFlagNames o.table o.field)

/-- The exact rational `num / 2^fbits` of a FRAC operand (R8 `frac`, R78). -/
def Operand.fraction (o : Operand) : Rat := (o.num.toInt : Rat) / 2 ^ o.fbits

end Sys2Proof.Machine
end

