-- ==== Sys2Proof/Machine/Ops.lean ====
section
/-! DEFINITION. The named operations over the program buffer (20_memory R40 to R47), the skip target (43_skip
R131), and driving the output record (10_state R24). The spec describes no exception entry and no return
from one (60_exceptions R160, R166, R167: "No trap exists. No state is saved, no mode changes, no vector is
fetched"), so no such operation stands here; the conditions E1 and E2 of R161 are outputs of the record. -/

namespace Sys2Proof.Machine

/-! ### The program buffer -/

/-- What an address that is not listed reads as (DESIGN CHOICE, log 2). -/
def Memory.blank : Byte := 0

/-- One byte of the buffer. -/
def Memory.read : Memory → Nat → Byte
  | [], _ => Memory.blank
  | (a, b) :: m, x => if x = a then b else Memory.read m x

/-- One byte of the buffer replaced, in the canonical form. Used only to place a program from outside: the
block writes no memory (R53). -/
def Memory.write : Memory → Nat → Byte → Memory
  | [], x, v => if v = Memory.blank then [] else [(x, v)]
  | (a, b) :: m, x, v =>
    if x < a then (if v = Memory.blank then (a, b) :: m else (x, v) :: (a, b) :: m)
    else if x = a then (if v = Memory.blank then m else (a, v) :: m)
    else (a, b) :: Memory.write m x v

/-- The addresses of a memory are at least `lo`, strictly rising, below 512, and no byte is blank. -/
def Memory.wfFrom (lo : Nat) : Memory → Bool
  | [] => true
  | (a, b) :: m => decide (lo ≤ a) && decide (a < Config.progBytes) && (b != Memory.blank) && Memory.wfFrom (a + 1) m

/-- The canonical form of the program buffer (R40: byte addresses 0 to 511). -/
def Memory.wf (m : Memory) : Bool := Memory.wfFrom 0 m

/-- The bytes from address `base` on as a memory in the canonical form. -/
def Memory.ofBytesFrom : Nat → List Byte → Memory
  | _, [] => []
  | base, b :: bs =>
    if b = Memory.blank then Memory.ofBytesFrom (base + 1) bs else (base, b) :: Memory.ofBytesFrom (base + 1) bs

/-- A program of bytes as the buffer's contents. -/
def Memory.ofBytes (bytes : List Byte) : Memory := Memory.ofBytesFrom 0 bytes

/-- The byte address of a slot: `4*a` (R42, R45). -/
def slotBase (a : Slot) : Nat := Config.slotBytes * a.toNat

/-- Four bytes from byte address `x`, as a container in the buffer's byte order (R43). -/
def Memory.readContainer (m : Memory) (x : Nat) : Word :=
  wordOfBytes (m.read x) (m.read (x + 1)) (m.read (x + 2)) (m.read (x + 3))

/-- `MemRead(addr, 4)`, with `addr` a multiple of 4 in 0 to 508; "no other address is ever read" (R43). -/
def memRead (m : Memory) (x : Nat) : Option Word :=
  if x % Config.slotBytes = 0 ∧ x + Config.slotBytes ≤ Config.progBytes then some (m.readContainer x) else none

/-- `word(a) = MemRead(4*a, 4)`, the fetch front end (R42); every slot is a legal address (R45). -/
def slotWord (m : Memory) (a : Slot) : Word := m.readContainer (slotBase a)

/-- Bytes stored one after another from address `x`. -/
def Memory.writeBytes (m : Memory) (x : Nat) : List Byte → Memory
  | [] => m
  | b :: bs => Memory.writeBytes (m.write x b) (x + 1) bs

/-- The container of a slot placed in the buffer from outside (R47: where the bytes come from is the host's). -/
def placeWord (m : Memory) (a : Slot) (word : Word) : Memory := m.writeBytes (slotBase a) (bytesOfWord word)

/-! ### The skip target -/

/-- `target = addr + 1 + offset` on the 9-bit two's complement bus, which holds the sum exactly (R131). -/
def skipTarget (addr : Slot) (offset : BitVec 8) : BitVec 9 :=
  addr.setWidth 9 + 1#9 + offset.signExtend 9

/-! ### The output record -/

/-- The record for an operation and its operands (R24, R62); `offset` is the offset operand of a
skip-class instruction, none for any other. -/
def mkRecord (word : Word) (addr : Slot) (suppressRaw : Bool) (op : OpId) (opnds : List Operand)
    (offset : Option (BitVec 8)) : Record where
  addr := addr
  raw := word
  op := op
  isRaw := isRawOp op
  nopnd := opnds.length
  opnd0 := opnds.getD 0 .null
  opnd1 := opnds.getD 1 .null
  opnd2 := opnds.getD 2 .null
  isSkip := offset.isSome
  target := match offset with
    | some o => skipTarget addr o
    | none => 0
  targetValid := match offset with
    | some o => targetInRange (skipTarget addr o)
    | none => false
  opOut := suppressedOp op suppressRaw
  nopndOut := suppressedCount (suppressedOp op suppressRaw) opnds.length

/-- Drive the output ports for an instruction that is not skip-class. -/
def State.drive (s : State) (op : OpId) (opnds : List Operand) : State :=
  { s with out := mkRecord s.word s.addr s.suppressRaw op opnds none }

/-- Drive the output ports for a skip with the given offset (R130 to R132). -/
def State.driveSkip (s : State) (op : OpId) (opnds : List Operand) (offset : BitVec 8) : State :=
  { s with out := mkRecord s.word s.addr s.suppressRaw op opnds (some offset) }

/-! ### Presenting a slot to the block -/

/-- The host drives the input ports: the word of a slot, its index, `suppress_raw` (R42, R171). -/
def State.present (s : State) (p : Presentation) : State :=
  { s with word := slotWord s.mem p.addr, addr := p.addr, suppressRaw := p.suppressRaw }

end Sys2Proof.Machine
end

