-- ==== Sys2Proof/Machine/Accumulator.lean ====
section
/-! DEFINITION. Accumulator instructions LOG, EXP, SOF, AND, OR, XOR (42_accumulator_ops R120 to R125; formats
FS and FL of R68, R69). -/

namespace Sys2Proof.Machine

/-- The operands of `decode_FS`: FRAC S1.11 and FRAC in the entry's offset format (R68). -/
def operandsFS (offsetFormat : FixedFormat) (k : BitVec 13) (d : BitVec 6) : List Operand :=
  [.frac Table.fsK Config.s1p11 k, .frac Table.fsD offsetFormat d]

/-- LOG, offset in S4.1 (R120). -/
def execLog (k : BitVec 13) (d : BitVec 6) (s : State) : Host.Outcome State Fault Refusal :=
  .next (s.drive .log (operandsFS Config.s4p1 k d))

/-- EXP, offset in S.5 (R121). -/
def execExp (k : BitVec 13) (d : BitVec 6) (s : State) : Host.Outcome State Fault Refusal :=
  .next (s.drive .exp (operandsFS Config.s0p5 k d))

/-- SOF, offset in S.5 (R122). -/
def execSof (k : BitVec 13) (d : BitVec 6) (s : State) : Host.Outcome State Fault Refusal :=
  .next (s.drive .sof (operandsFS Config.s0p5 k d))

/-- AND (R123). -/
def execAnd (mask : BitVec 19) (s : State) : Host.Outcome State Fault Refusal :=
  .next (s.drive .and [.uint Table.flMask mask])

/-- OR (R124). -/
def execOr (mask : BitVec 19) (s : State) : Host.Outcome State Fault Refusal :=
  .next (s.drive .or [.uint Table.flMask mask])

/-- XOR (R125). -/
def execXor (mask : BitVec 19) (s : State) : Host.Outcome State Fault Refusal :=
  .next (s.drive .xor [.uint Table.flMask mask])

end Sys2Proof.Machine
end

