-- ==== Sys2Proof/Machine/Delay.lean ====
section
/-! DEFINITION. Delay-memory instructions RDA, RMPA, WRA, WRAP (40_delay_ops R100 to R103; formats FD and FK
of R66). The block reads and writes no delay memory (R41, R53). -/

namespace Sys2Proof.Machine

/-- The operands of format FD: DADDR and FRAC S1.8 (R66). -/
def operandsFD (daddr : BitVec 9) (k : BitVec 10) : List Operand :=
  [.daddr Table.fdDaddr daddr, .frac Table.fdK Config.s1p8 k]

/-- RDA (R100). -/
def execRda (daddr : BitVec 9) (k : BitVec 10) (s : State) : Host.Outcome State Fault Refusal :=
  .next (s.drive .rda (operandsFD daddr k))

/-- RMPA (R101). -/
def execRmpa (k : BitVec 10) (s : State) : Host.Outcome State Fault Refusal :=
  .next (s.drive .rmpa [.frac Table.fdK Config.s1p8 k])

/-- WRA (R102). -/
def execWra (daddr : BitVec 9) (k : BitVec 10) (s : State) : Host.Outcome State Fault Refusal :=
  .next (s.drive .wra (operandsFD daddr k))

/-- WRAP (R103). -/
def execWrap (daddr : BitVec 9) (k : BitVec 10) (s : State) : Host.Outcome State Fault Refusal :=
  .next (s.drive .wrap (operandsFD daddr k))

end Sys2Proof.Machine
end

