-- ==== Sys2Proof/Machine/Lfo.lean ====
section
/-! DEFINITION. LFO instructions WLDS, WLDR, JAM, CHO RDA, CHO SOF, CHO RDAL (44_lfo_ops R140 to R146; formats
of R71). -/

namespace Sys2Proof.Machine

/-- WLDS (R141). -/
def execWlds (n : BitVec 1) (f : BitVec 9) (a : BitVec 8) (s : State) : Host.Outcome State Fault Refusal :=
  .next (s.drive .wlds [.enum Table.fwN .lfo2s n, .uint Table.fwsF f, .uint Table.fwsA a])

/-- WLDR (R142): `num` of the amplitude is its 2-bit code. -/
def execWldr (n : BitVec 1) (f : BitVec 15) (a : BitVec 2) (s : State) : Host.Outcome State Fault Refusal :=
  .next (s.drive .wldr [.enum Table.fwN .lfo2r n, .sint Table.fwrF f, .enum Table.fwrA .rampAmp a])

/-- JAM (R143). -/
def execJam (n : BitVec 1) (s : State) : Host.Outcome State Fault Refusal :=
  .next (s.drive .jam [.enum Table.fjN .lfo2r n])

/-- CHO RDA (R144). -/
def execChoRda (n : BitVec 2) (flags : BitVec 6) (daddr : BitVec 9) (s : State) : Host.Outcome State Fault Refusal :=
  .next (s.drive .choRda
    [.enum Table.choN .lfo4 n, .flags Table.choFlags .choFlags flags, .daddr Table.choLow daddr])

/-- CHO SOF (R145). -/
def execChoSof (n : BitVec 2) (flags : BitVec 6) (d : BitVec 9) (s : State) : Host.Outcome State Fault Refusal :=
  .next (s.drive .choSof
    [.enum Table.choN .lfo4 n, .flags Table.choFlags .choFlags flags, .frac Table.choLow Config.s0p8 d])

/-- CHO RDAL (R146). -/
def execChoRdal (n : BitVec 2) (s : State) : Host.Outcome State Fault Refusal :=
  .next (s.drive .choRdal [.enum Table.choN .lfo4 n])

end Sys2Proof.Machine
end

