-- ==== Sys2Proof/Machine/Raw.lean ====
section
/-! DEFINITION. The RAW pseudo-opcode (45_raw_nop R150, R151). Its stand-in NOP under raw suppression (R152)
is the last stage of every record, `suppressedOp` and `suppressedCount` of Machine/Flags.lean. -/

namespace Sys2Proof.Machine

/-- RAW (R150): no operands; the record keeps the word of the `word` port, as every record does (R151). -/
def execRaw (s : State) : Host.Outcome State Fault Refusal :=
  .next (s.drive .raw [])

end Sys2Proof.Machine
end

