-- ==== Sys2Proof/Machine/Register.lean ====
section
/-! DEFINITION. Register instructions RDAX, RDFX, WRAX, WRHX, WRLX, MAXX, MULX (41_register_ops R110 to R116;
formats FR and FM of R67). Every 6-bit register value is accepted; the block holds no register (R27). -/

namespace Sys2Proof.Machine

/-- The operands of `decode_FR` (41_register_ops): REG and FRAC S1.11 (R67). -/
def operandsFR (r : BitVec 6) (k : BitVec 13) : List Operand :=
  [.reg Table.frReg r, .frac Table.frK Config.s1p11 k]

/-- RDAX (R110). -/
def execRdax (r : BitVec 6) (k : BitVec 13) (s : State) : Host.Outcome State Fault Refusal :=
  .next (s.drive .rdax (operandsFR r k))

/-- RDFX (R111). -/
def execRdfx (r : BitVec 6) (k : BitVec 13) (s : State) : Host.Outcome State Fault Refusal :=
  .next (s.drive .rdfx (operandsFR r k))

/-- WRAX (R112). -/
def execWrax (r : BitVec 6) (k : BitVec 13) (s : State) : Host.Outcome State Fault Refusal :=
  .next (s.drive .wrax (operandsFR r k))

/-- WRHX (R113). -/
def execWrhx (r : BitVec 6) (k : BitVec 13) (s : State) : Host.Outcome State Fault Refusal :=
  .next (s.drive .wrhx (operandsFR r k))

/-- WRLX (R114). -/
def execWrlx (r : BitVec 6) (k : BitVec 13) (s : State) : Host.Outcome State Fault Refusal :=
  .next (s.drive .wrlx (operandsFR r k))

/-- MAXX (R115). -/
def execMaxx (r : BitVec 6) (k : BitVec 13) (s : State) : Host.Outcome State Fault Refusal :=
  .next (s.drive .maxx (operandsFR r k))

/-- MULX (R116). -/
def execMulx (r : BitVec 6) (s : State) : Host.Outcome State Fault Refusal :=
  .next (s.drive .mulx [.reg Table.frReg r])

end Sys2Proof.Machine
end

