-- ==== Sys2Proof/Machine/Skip.lean ====
section
/-! DEFINITION. The skip instruction SKP (43_skip R130 to R136; format FP of R70). The block transfers no
control: the target is an output (R131), and a target outside 0 to 127 clears `target_valid` and nothing
else (R132, R134). -/

namespace Sys2Proof.Machine

/-- SKP (R130). -/
def execSkp (flags : BitVec 5) (offset : BitVec 8) (s : State) : Host.Outcome State Fault Refusal :=
  .next (s.driveSkip .skp [.flags Table.fpFlags .skpFlags flags, .sint Table.fpOffset offset] offset)

end Sys2Proof.Machine
end

