-- ==== Sys2Proof/Machine/Dispatch.lean ====
section
/-! DEFINITION. One arm per constructor of Instr: the meaning of each instruction. -/

namespace Sys2Proof.Machine

def exec (i : Instr) (s : State) : Host.Outcome State Fault Refusal :=
  match i with
  -- 40_delay_ops
  | .rda daddr k => Sys2Proof.Machine.execRda daddr k s
  | .rmpa k => Sys2Proof.Machine.execRmpa k s
  | .wra daddr k => Sys2Proof.Machine.execWra daddr k s
  | .wrap daddr k => Sys2Proof.Machine.execWrap daddr k s
  -- 41_register_ops
  | .rdax r k => Sys2Proof.Machine.execRdax r k s
  | .rdfx r k => Sys2Proof.Machine.execRdfx r k s
  | .wrax r k => Sys2Proof.Machine.execWrax r k s
  | .wrhx r k => Sys2Proof.Machine.execWrhx r k s
  | .wrlx r k => Sys2Proof.Machine.execWrlx r k s
  | .maxx r k => Sys2Proof.Machine.execMaxx r k s
  | .mulx r => Sys2Proof.Machine.execMulx r s
  -- 42_accumulator_ops
  | .log k d => Sys2Proof.Machine.execLog k d s
  | .exp k d => Sys2Proof.Machine.execExp k d s
  | .sof k d => Sys2Proof.Machine.execSof k d s
  | .and mask => Sys2Proof.Machine.execAnd mask s
  | .or mask => Sys2Proof.Machine.execOr mask s
  | .xor mask => Sys2Proof.Machine.execXor mask s
  -- 43_skip
  | .skp flags offset => Sys2Proof.Machine.execSkp flags offset s
  -- 44_lfo_ops
  | .wlds n f a => Sys2Proof.Machine.execWlds n f a s
  | .wldr n f a => Sys2Proof.Machine.execWldr n f a s
  | .jam n => Sys2Proof.Machine.execJam n s
  | .choRda n flags daddr => Sys2Proof.Machine.execChoRda n flags daddr s
  | .choSof n flags d => Sys2Proof.Machine.execChoSof n flags d s
  | .choRdal n => Sys2Proof.Machine.execChoRdal n s
  -- 45_raw_nop
  | .raw _ => Sys2Proof.Machine.execRaw s

end Sys2Proof.Machine
end

