-- ==== Sys2Proof/Machine/Render.lean ====
section
/-! DEFINITION. Assembler text: the lines the host's renderer writes (30_encoding R79 to R86; 60_exceptions
R179). Presentation of the output record; no output of the block depends on it.
Details that the grammar leaves to the reader: log 14. -/

namespace Sys2Proof.Machine

/-! ### Operand text (R81) -/

/-- The decimal digits after the point of `rem / den`, by long division for at most `fuel` digits; the list
ends where the remainder is zero, so it has no trailing zero (D22). -/
def fractionDigits (den : Nat) : Nat → Nat → List Nat
  | 0, _ => []
  | fuel + 1, rem => if rem = 0 then [] else rem * 10 / den :: fractionDigits den fuel (rem * 10 % den)

/-- The digits a fraction shows after the point: at least one (R81, D22). -/
def shownDigits (ds : List Nat) : List Nat := if ds = [] then [0] else ds

/-- The exact decimal expansion of `num / 2^fbits` (R81, D22). -/
def fractionText (num : Int) (fbits : Nat) : String :=
  let den := 2 ^ fbits
  (if num < 0 then "-" else "") ++ toString (num.natAbs / den) ++ "."
    ++ String.join ((shownDigits (fractionDigits den fbits (num.natAbs % den))).map toString)

/-- The text of a display-domain value (R81). -/
def DisplayValue.text : DisplayValue → String
  | .nothing => ""
  | .integer n => toString n
  | .fraction num fbits => fractionText num fbits
  | .name text => text
  | .names [] => "0"
  | .names (n :: ns) => String.intercalate "|" (n :: ns)

/-- The text of an operand by its kind (R81). -/
def Operand.text (o : Operand) : String := o.display.text

/-! ### Mnemonics (R80) -/

/-- The mnemonic column (R80): the OpId in lower case; `cho` for the three CHO forms. -/
def mnemonicText : OpId → String
  | .rda => "rda"
  | .rmpa => "rmpa"
  | .wra => "wra"
  | .wrap => "wrap"
  | .rdax => "rdax"
  | .rdfx => "rdfx"
  | .wrax => "wrax"
  | .wrhx => "wrhx"
  | .wrlx => "wrlx"
  | .maxx => "maxx"
  | .mulx => "mulx"
  | .log => "log"
  | .exp => "exp"
  | .sof => "sof"
  | .and => "and"
  | .or => "or"
  | .xor => "xor"
  | .skp => "skp"
  | .wlds => "wlds"
  | .wldr => "wldr"
  | .jam => "jam"
  | .choRda | .choSof | .choRdal => "cho"
  | .raw => "raw"
  | .nop => "nop"

/-- The first operand `rda`, `sof` or `rdal` of the CHO forms (R80); no other operation has one. -/
def choForm : OpId → List String
  | .choRda => ["rda"]
  | .choSof => ["sof"]
  | .choRdal => ["rdal"]
  | .rda | .rmpa | .wra | .wrap | .rdax | .rdfx | .wrax | .wrhx | .wrlx | .maxx | .mulx => []
  | .log | .exp | .sof | .and | .or | .xor | .skp | .wlds | .wldr | .jam | .raw | .nop => []

/-! ### Labels (R84) -/

/-- `addr` and the address in at least two decimal digits (R84). -/
def labelText (a : Slot) : String :=
  "addr" ++ (if a.toNat < 10 then "0" else "") ++ toString a.toNat

/-! ### Columns of a line (R79) -/

/-- The operands of a record, in assembler order (R24). -/
def Record.operands (r : Record) (count : Nat) : List Operand := [r.opnd0, r.opnd1, r.opnd2].take count

/-- The second operand of a skip: the label of a valid target in label mode, else the raw numeric offset
(R83). -/
def skipOperandText (relative : Bool) (labels : List (Slot × String)) (r : Record) : String :=
  if relative = false ∧ r.targetValid = true then
    match labels.lookup (r.target.setWidth 7) with
    | some label => label
    | none => r.opnd1.text
  else r.opnd1.text

/-- The texts of the operand column (R80, R81, R83, R179: mnemonic and operand count from `op_out`,
`nopnd_out`). -/
def operandTexts (relative : Bool) (labels : List (Slot × String)) (r : Record) : List String :=
  if r.isSkip then [r.opnd0.text, skipOperandText relative labels r]
  else choForm r.opOut ++ (r.operands r.nopndOut).map Operand.text

/-- The comment tag of an operand (R82); `skip` says that the operand is of a skip instruction. -/
def operandTag (skip : Bool) (o : Operand) : String :=
  match o.kind with
  | .none => ""
  | .flags => "flags:0x" ++ hexDigits 2 o.field.toNat
  | .reg => "reg:0x" ++ hexDigits 2 o.field.toNat
  | .frac => "k:0x" ++ hexDigits 4 o.field.toNat
  | .daddr => "del:0x" ++ hexDigits 4 o.field.toNat
  | .sint =>
    if skip then "offset:0x" ++ hexDigits 2 o.field.toNat
    else "val:0x" ++ hexDigits ((o.hi - o.lo + 4) / 4) o.field.toNat
  | .uint | .enum => "val:0x" ++ hexDigits ((o.hi - o.lo + 4) / 4) o.field.toNat

/-- The comment column (R82): one tag per operand; the literal word of a RAW, suppressed or not (R153). -/
def commentText (r : Record) : String :=
  if r.isRaw then "0x" ++ hexDigits 8 r.raw.toNat
  else String.intercalate " " ((r.operands r.nopnd).map (operandTag r.isSkip))

/-- The label column: the label of the line's address and a colon, if the address has one (R84, R179). -/
def labelPrefix (labels : List (Slot × String)) (a : Slot) : String :=
  match labels.lookup a with
  | some label => label ++ ":"
  | none => ""

/-- One line: `[label:]<TAB>mnemonic<TAB>operand[,operand...]<TAB>; comment` (R79, R86). -/
def renderLine (relative : Bool) (labels : List (Slot × String)) (r : Record) : String :=
  labelPrefix labels r.addr ++ "\t" ++ mnemonicText r.opOut ++ "\t"
    ++ String.intercalate "," (operandTexts relative labels r) ++ "\t; " ++ commentText r

end Sys2Proof.Machine
end

