-- ==== Sys2Proof/Machine/Passes.lean ====
section
/-! DEFINITION. The host's duties (60_exceptions R171 to R180): bank slicing and the truncation check, pass 1
(decode every slot), pass 2 (label table), pass 3 (rendering, warnings), and the host's next move. -/

namespace Sys2Proof.Machine

/-! ### Obtaining the program (R173, R192; E3 of R161) -/

/-- The window of the selected program: 512 bytes at `512*p` of the image, or what there is of them (R47, R173;
log 7). -/
def programWindow (image : List Byte) (p : Fin 8) : List Byte :=
  (image.drop (Config.progBytes * p.val)).take Config.progBytes

/-- Whether the image is shorter than 512 bytes for the selected program (R48, R161 E3). -/
def truncated (image : List Byte) (p : Fin 8) : Bool :=
  decide ((programWindow image p).length < Config.progBytes)

/-- The start of a run: the window handed to the core, every slot pending, nothing kept of an earlier run
(R21, R52, R192). No slot is presented by this move, and the ports hold what they held (DESIGN CHOICE, log 15). -/
def startRun (s : State) : State :=
  { s with
    mem := Memory.ofBytes (programWindow s.host.image s.host.options.program)
    host := { s.host with
      phase := .decode
      pending := allSlots s.host.options.suppressRaw
      records := []
      labels := []
      lines := []
      output := []
      warnings := []
      result := .running } }

/-- The host obtains the program, or refuses a short image: E3, "a fatal input error ... aborting the run before
any output is produced" (R48, R161). -/
def obtainProgram (s : State) : Host.Outcome State Fault Refusal :=
  if truncated s.host.image s.host.options.program then .fault .truncatedInput else .next (startRun s)

/-! ### Pass 1 (R174) -/

/-- A record put in its place in address order; a slot decoded again keeps one record, the last (R174; log 5). -/
def insertRecord (r : Record) : List Record → List Record
  | [] => [r]
  | q :: qs =>
    if r.addr.toNat < q.addr.toNat then r :: q :: qs
    else if r.addr = q.addr then r :: qs
    else q :: insertRecord r qs

/-- The host keeps the record on the output ports; `rest` is still to be presented. -/
def State.keepRecord (s : State) (rest : List Presentation) : State :=
  { s with host := { s.host with pending := rest, records := insertRecord s.out s.host.records } }

/-- One presentation: the host drives the ports with a slot's word, the block runs the decoded instruction,
the host keeps the record (R42, R171, R174). -/
def decodeSlot (s : State) (p : Presentation) (rest : List Presentation) : Host.Outcome State Fault Refusal :=
  match exec (decode (slotWord s.mem p.addr)) (s.present p) with
  | .next t => .next (t.keepRecord rest)
  | .fault r => .fault r
  | .refused r => .refused r

/-! ### Pass 2 (R175, R176) -/

/-- The slot a record's valid skip target names. -/
def Record.targetSlot (r : Record) : Slot := r.target.setWidth 7

/-- One record of the scan: a valid skip target not yet in the table gets the next entry (R175). -/
def addLabel (labels : List (Slot × String)) (r : Record) : List (Slot × String) :=
  if r.isSkip = true ∧ r.targetValid = true ∧ labels.lookup r.targetSlot = none then
    labels ++ [(r.targetSlot, labelText r.targetSlot)]
  else labels

/-- The label table of a list of records, scanned in the order given, which is ascending address order (R175). -/
def labelTable (records : List Record) : List (Slot × String) := records.foldl addLabel []

/-- Pass 2, "skipped entirely when relative-targets mode is selected" (R175). -/
def labelsFor (relative : Bool) (records : List Record) : List (Slot × String) :=
  if relative then [] else labelTable records

/-- Pass 2 as a move of the host. It presents no slot: the ports hold what they held (DESIGN CHOICE, log 15). -/
def labelPass (s : State) : State :=
  { s with host := { s.host with labels := labelsFor s.host.options.relative s.host.records, phase := .render } }

/-! ### Pass 3 (R177 to R180) -/

/-- The warning of a record, if its skip target is out of range (R161 E2, R177). -/
def Record.warning (r : Record) : Option Warning :=
  if r.isSkip = true ∧ r.targetValid = false then some ⟨r.addr, r.opnd1.num, r.target⟩ else none

/-- The E2 conditions of the records, in address order (R165, R177). -/
def warningsOf (records : List Record) : List Warning := records.filterMap Record.warning

/-- The diagnostic stream: quiet mode suppresses warnings (R178). In relative mode they are still written (R177). -/
def diagnostics (quiet : Bool) (records : List Record) : List Warning :=
  if quiet then [] else warningsOf records

/-- The end of a run: it succeeds unless warnings are escalated by caller policy (R177; log 10). -/
def runResult (escalate : Bool) (records : List Record) : RunResult :=
  if escalate = true ∧ warningsOf records ≠ [] then .failed else .succeeded

/-- Pass 3 as a move of the host: lines in address order, warnings, how the run ended (R179, R180). It presents
no slot: the ports hold what they held (DESIGN CHOICE, log 15). -/
def renderPass (s : State) : State :=
  { s with host := { s.host with
      lines := s.host.records.map (renderLine s.host.options.relative s.host.labels)
      warnings := diagnostics s.host.options.quiet s.host.records
      result := runResult s.host.escalate s.host.records
      phase := .release } }

/-! ### The end of a run (R176, R180, R199) -/

/-- The end of a run as a move of the host: the text goes to the output stream, and what the run owned is
"released when the run completes" (R199): the program buffer and the text accumulator; the records and the
label table are "discarded after the run" (R21, R176). The streams written and the result stay with the
caller, as the image it supplied does (log 17); the ports hold what they held (DESIGN CHOICE, log 15). -/
def releaseRun (s : State) : State :=
  { s with
    mem := []
    host := { s.host with
      records := []
      labels := []
      lines := []
      output := s.host.lines
      phase := .finished } }

/-! ### The host's next move (log 5) -/

/-- The host's next move: obtain the program; present the next pending slot; when none is pending, label; render;
release; after the end of the run nothing is presented and nothing changes (R174 to R180, R192, R199). -/
def hostMove (s : State) : Host.Outcome State Fault Refusal :=
  match s.host.phase with
  | .obtain => obtainProgram s
  | .decode =>
    match s.host.pending with
    | p :: rest => decodeSlot s p rest
    | [] => .next (labelPass s)
  | .render => .next (renderPass s)
  | .release => .next (releaseRun s)
  | .finished => .next s

/-! ### Placing an instruction from outside -/

/-- The presentation the next move makes if it makes one, else slot 0 with the host's option. -/
def nextPresentation (s : State) : Presentation :=
  match s.host.phase, s.host.pending with
  | .decode, p :: _ => p
  | _, _ => ⟨0, s.host.options.suppressRaw⟩

/-- The presentations pending once `nextPresentation` is the next one. -/
def pendingFrom (s : State) : List Presentation :=
  match s.host.phase, s.host.pending with
  | .decode, p :: rest => p :: rest
  | _, pending => nextPresentation s :: pending

/-- A container placed in the slot that the next move presents; the host set to present it (log 4). What the host
holds of a run before it (records, labels, lines, output, warnings, result) stays (DESIGN CHOICE, log 16). -/
def placeNext (s : State) (word : Word) : State :=
  { s with
    mem := placeWord s.mem (nextPresentation s).addr word
    host := { s.host with phase := .decode, pending := pendingFrom s } }

end Sys2Proof.Machine
end

