-- ==== Sys2Proof/Machine/Step.lean ====
section
/-! DEFINITION. One step of the machine, and placing the next instruction from outside. -/

namespace Sys2Proof.Machine

/-- One step: the host's next move, which in pass 1 is one presentation of a slot to the block (R10, R174). -/
def step (s : State) : Host.Outcome State Fault Refusal := hostMove s

/-- `s` with the container whose low `nbits` bits are `w`, the others zero, in the slot that the next step
presents to the block (log 4). -/
def State.withFetchWord (s : State) (nbits w : Nat) : State := placeNext s (BitVec.ofNat 32 (w % 2 ^ nbits))

end Sys2Proof.Machine
end

