-- ==== Sys2Proof/Machine/Algorithm.lean ====
section
/-! DEFINITION. The decode algorithm of 30_encoding R62 as the spec writes it: lookup (R63), one loop over the
entry's descriptors (R64), the skip target over the integers (R131, R132), the raw-suppression stage (R152).
The meanings of the instructions do not use this file; it is the one-place description they are held to. -/

namespace Sys2Proof.Machine

/-- `lookup(opcode, insn)` (R63): by the opcode alone but for 0x12 and 0x14; RAW if nothing matches. -/
def lookupOp (insn : Insn) : OpId :=
  let opcode := (insn.extractLsb' 19 5).toNat
  if opcode = 0x12 then
    if insn.getLsbD 18 then .wldr else .wlds
  else if opcode = 0x14 then
    match insn.getLsbD 18, insn.getLsbD 17 with
    | false, false => .choRda
    | true, false => .choSof
    | true, true => .choRdal
    | false, true => .raw
  else
    [OpId.rda, .rmpa, .wra, .wrap, .rdax, .rdfx, .wrax, .wrhx, .wrlx, .maxx, .mulx, .log, .exp, .sof, .and, .or,
      .xor, .skp, .raw, .jam].getD opcode .raw

/-- `sext_W` of R8 and R77 on a field of width `w` read as a number: `f` below `2^(w-1)`, else `f - 2^w`. -/
def sextInt (w f : Nat) : Int := if f < 2 ^ (w - 1) then (f : Int) else (f : Int) - 2 ^ w

/-- The body of R62's loop: the operand of one descriptor. -/
def operandOf (d : Descriptor) (insn : Insn) : Operand :=
  let w := d.field.width
  let f := insn.toNat / 2 ^ d.field.lo % 2 ^ w
  { kind := d.kind
    hi := d.field.hi
    lo := d.field.lo
    field := BitVec.ofNat 19 f
    num := if d.kind = .sint ∨ d.kind = .frac then BitVec.ofInt 20 (sextInt w f) else BitVec.ofNat 20 f
    fbits := d.fbits
    table := d.table
    named := d.kind != .reg || (regName (BitVec.ofNat 6 f)).isSome }

/-- `addr + 1 + sext_8(insn[13:6])` over the integers (R62, R131). -/
def targetInt (addr : Slot) (insn : Insn) : Int :=
  (addr.toNat : Int) + 1 + sextInt 8 (insn.toNat / 2 ^ 6 % 2 ^ 8)

/-- Decode of `(word, addr)` with the last stage of `suppress_raw`: the whole block (R62). -/
def blockRecord (word : Word) (addr : Slot) (suppressRaw : Bool) : Record :=
  let insn : Insn := word.setWidth 24
  let op := lookupOp insn
  let opnds := (Table.descriptors op).map fun d => operandOf d insn
  let opOut := if op = .raw ∧ suppressRaw = true then .nop else op
  { addr := addr
    raw := word
    op := op
    isRaw := op == .raw
    nopnd := opnds.length
    opnd0 := opnds.getD 0 .null
    opnd1 := opnds.getD 1 .null
    opnd2 := opnds.getD 2 .null
    isSkip := op == .skp
    target := if op = .skp then BitVec.ofInt 9 (targetInt addr insn) else 0
    targetValid := op == .skp && decide (0 ≤ targetInt addr insn) && decide (targetInt addr insn ≤ 127)
    opOut := opOut
    nopndOut := if opOut = .nop then 0 else opnds.length }

end Sys2Proof.Machine
end

