-- ==== Sys2Proof/Safety.lean ====
section
/-! DEFINITION. The terms claims are stated in: the invariant of the machine, the outcomes a run may have, and
the words of the spec's rules that its claims share. -/

namespace Sys2Proof.Machine

/-! ### The invariant -/

/-- The outputs are the function of the inputs present (R20, R37). -/
def State.OutFollowsInputs (s : State) : Prop := s.out = blockRecord s.word s.addr s.suppressRaw

/-- Every record kept is the block's record of its slot's word in the buffer (R50 a, R174). -/
def State.RecordsFaithful (s : State) : Prop :=
  ∀ r ∈ s.host.records, ∃ suppressRaw, r = blockRecord (slotWord s.mem r.addr) r.addr suppressRaw

/-- The records are kept in address order, one for a slot (R174, R179). -/
def State.RecordsAscending (s : State) : Prop :=
  s.host.records.Pairwise fun q r => q.addr.toNat < r.addr.toNat

/-- Nothing is written before pass 3, no label exists before pass 2, and nothing is handed over before the end of
the run (R179, R180). -/
def State.NothingEarly (s : State) : Prop :=
  (s.host.phase = .decode → s.host.labels = []) ∧
  (s.host.phase = .decode ∨ s.host.phase = .render →
    s.host.lines = [] ∧ s.host.warnings = [] ∧ s.host.result = .running) ∧
  (s.host.phase = .decode ∨ s.host.phase = .render ∨ s.host.phase = .release → s.host.output = [])

/-- After pass 2 the labels, after pass 3 the lines, warnings and result, are those of the records kept (R175
to R179). -/
def State.PassesFaithful (s : State) : Prop :=
  (s.host.phase = .render ∨ s.host.phase = .release →
    s.host.labels = labelsFor s.host.options.relative s.host.records) ∧
  (s.host.phase = .release →
    s.host.lines = s.host.records.map (renderLine s.host.options.relative s.host.labels) ∧
    s.host.warnings = diagnostics s.host.options.quiet s.host.records ∧
    s.host.result = runResult s.host.escalate s.host.records)

/-- Once a run has ended, the run's buffer, text accumulator, records and label table are released (R176, R199). -/
def State.NothingKept (s : State) : Prop :=
  s.host.phase = .finished → s.mem = [] ∧ s.host.lines = [] ∧ s.host.records = [] ∧ s.host.labels = []

/-- The invariant of the machine. -/
structure State.Inv (s : State) : Prop where
  out : s.OutFollowsInputs
  mem : s.mem.wf = true
  faithful : s.RecordsFaithful
  ascending : s.RecordsAscending
  early : s.NothingEarly
  passes : s.PassesFaithful
  released : s.NothingKept

/-! ### Safe outcomes -/

/-- A step is safe when it goes on, or stops with the one stop the spec gives: E3 (R48, R161). -/
def safeOutcome : Host.Outcome State Fault Refusal → Bool
  | .next _ => true
  | .fault .truncatedInput => true
  | .refused _ => false

/-! ### Words of the rules -/

/-- The state with another record on the output ports and everything else as it was. -/
def State.withOut (s : State) (r : Record) : State := { s with out := r }

/-- The record of an instruction that is neither RAW nor skip-class, as the "Common to" paragraphs of 40, 41, 42
and 44 give it: `is_skip = 0`, `target = 0`, `target_valid = 0`, `is_raw = 0`, `op_out = op`,
`nopnd_out = nopnd`. -/
def plainRecord (s : State) (op : OpId) (nopnd : Nat) (o0 o1 o2 : Operand) : Record where
  addr := s.addr
  raw := s.word
  op := op
  isRaw := false
  nopnd := nopnd
  opnd0 := o0
  opnd1 := o1
  opnd2 := o2
  isSkip := false
  target := 0
  targetValid := false
  opOut := op
  nopndOut := nopnd

/-- The value that the record's FRAC operand of a `w`-bit field with `f` fraction bits stands for: `num / 2^fbits`
of the operand that the block drives (R9, R26, R78). -/
def fracValue (f : Nat) {w : Nat} (v : BitVec w) : Rat := (Operand.frac ⟨w - 1, 0⟩ ⟨w, f⟩ v).fraction

/-- Every value of a FRAC operand of `w` bits with `f` fraction bits lies from `least` to `greatest`, and both
occur (R9, R65). -/
def FracRange (w f : Nat) (least greatest : Rat) : Prop :=
  (∀ v : BitVec w, least ≤ fracValue f v ∧ fracValue f v ≤ greatest) ∧
  (∃ v : BitVec w, fracValue f v = least) ∧ (∃ v : BitVec w, fracValue f v = greatest)

/-- Mnemonic and operands of a record as the rules quote them, with a blank for the tab and no label. -/
def recordText (r : Record) : String :=
  match operandTexts true [] r with
  | [] => mnemonicText r.opOut
  | o :: os => mnemonicText r.opOut ++ " " ++ String.intercalate "," (o :: os)

/-- A worked example of a rule: the block, given the word at a slot without raw suppression, answers a record
with the text and the comment that the rule prints. -/
def Example (word : Word) (addr : Slot) (text comment : String) : Prop :=
  ∀ s : State, s.word = word → s.addr = addr → s.suppressRaw = false →
    ∃ t, exec (decode word) s = .next t ∧ recordText t.out = text ∧ commentText t.out = comment

/-- A corner case of a rule: the word, wherever it stands and whatever `suppress_raw`, prints as the text. -/
def PrintsAs (word : Word) (text : String) : Prop :=
  ∀ s : State, s.word = word → ∃ t, exec (decode word) s = .next t ∧ recordText t.out = text

/-- The value of decimal digits after the point. -/
def digitsValue : List Nat → Rat
  | [] => 0
  | d :: ds => ((d : Rat) + digitsValue ds) / 10

end Sys2Proof.Machine
end

