-- ==== Sys2Proof/Certificates/Slice0/Obligations.lean ====
section
/-! DEFINITION. The statements for the provers, from the numbered rules of spec/. -/

open Sys2Proof Sys2Proof.Machine

/-! ## Encoding -/

/-- Words written out from R66 to R72 decode to the instructions they stand for, one for each family (R100,
R101, R112, R120, R125, R130, R142, R145, R150). -/
def Obligations.SpecWordsDecode : Prop :=
  decode 0b00000000_00000_001100100_0010000000#32 = .rda 0b001100100#9 0b0010000000#10 ∧
  decode 0b00000000_00001_111111111_1111111111#32 = .rmpa 0b1111111111#10 ∧
  decode 0b00000000_00110_010110_0000000000000#32 = .wrax 0b010110#6 0#13 ∧
  decode 0b00000000_01011_0100000000000_111111#32 = .log 0b0100000000000#13 0b111111#6 ∧
  decode 0b00000000_10000_1010101010101010101#32 = .xor 0b1010101010101010101#19 ∧
  decode 0b10101011_10001_10000_00000010_111111#32 = .skp 0b10000#5 0b00000010#8 ∧
  decode 0b00000000_10010_1_0_100000000000000_11#32 = .wldr 0#1 0b100000000000000#15 0b11#2 ∧
  decode 0b00000000_10100_10_10_100010_100000000#32 = .choSof 0b10#2 0b100010#6 0b100000000#9 ∧
  decode 0b00000000_10100_01_00001001000110100#32 = .raw 0x00A21234#32

/-- R12: for every valid opcode, decoding the encoded instruction gives it back with every operand value, and
`encode` leaves every bit zero that no opcode or field uses; the converse does not hold: encoding what was
decoded gives the word back exactly where every unused bit is zero. -/
def Obligations.DecodeEncodeRoundTrip : Prop :=
  (∀ i : Instr, i.op ≠ .raw → decode (encode i) = i) ∧
  (∀ i : Instr, i.op ≠ .raw → encode i &&& ~~~(usedBits i.op) = 0) ∧
  (∀ w : Word, (decode w).op ≠ .raw → (encode (decode w) = w ↔ w &&& ~~~(usedBits (decode w).op) = 0))

/-- Decoder and encoder agree on everything: every well-formed instruction, a RAW one too, comes back from its
word, and encoding what was decoded keeps exactly the bits that the instruction uses. That RAW encodes to
its word is the model's choice (log 8). -/
def Obligations.EncoderKeepsTheUsedBits : Prop :=
  (∀ i : Instr, i.wf = true → decode (encode i) = i) ∧
  (∀ w : Word, (decode w).wf = true ∧ encode (decode w) = w &&& usedBits (decode w).op)

/-- 30_encoding, introduction: the 28 rows are pairwise disjoint and cover every word, and the one row of a word
names the operation that the decoder gives it. -/
def Obligations.OpcodeRowsPartitionWords : Prop :=
  Table.rows.length = 28 ∧
  ∀ w : Word, ∃ r ∈ Table.rows, Table.rowMatches r w = true ∧ r.op = (decode w).op ∧
    ∀ q ∈ Table.rows, Table.rowMatches q w = true → q = r

/-- R73: the RAW set, how many of the 2^24 patterns it holds, and the record of a word in it, which is never
fatal. -/
def Obligations.UnmatchedWordsAreRaw : Prop :=
  (∀ w : Word, (decode w).op = .raw ↔
    (0x15 ≤ (w.extractLsb' 19 5).toNat ∨ w.extractLsb' 17 7 = 0b1010001#7)) ∧
  (∀ s : State, (decode s.word).op = .raw → ∃ t, exec (decode s.word) s = .next t ∧
    t.out.op = .raw ∧ t.out.isRaw = true ∧ t.out.nopnd = 0 ∧ t.out.raw = s.word) ∧
  ((Finset.range (2 ^ 24)).filter fun n => (decode (BitVec.ofNat 32 n)).op = .raw).card = 5898240

/-- R74: bits 31 to 24 of the container, whatever they are, change nothing of the record but `raw`. -/
def Obligations.IgnoredByteReachesRawOnly : Prop :=
  ∀ (s : State) (w : Word), s.word.extractLsb' 0 24 = w.extractLsb' 0 24 →
    ∃ t t', exec (decode s.word) s = .next t ∧ exec (decode w) { s with word := w } = .next t' ∧
      t'.out = { t.out with raw := w }

/-- R75: the bits no field uses (RMPA 18:10, MULX 12:0, SKP 5:0, JAM 17:0, CHO RDAL 14:0) change neither the
operation nor an operand nor the target and are visible in `raw` only; the encoder writes zeros there; decode
is injective on canonical words. -/
def Obligations.UnusedBitsAreIgnored : Prop :=
  (∀ (s : State) (w : Word),
    s.word &&& usedBits (decode s.word).op = w &&& usedBits (decode s.word).op →
    ∃ t t', exec (decode s.word) s = .next t ∧ exec (decode w) { s with word := w } = .next t' ∧
      t'.out = { t.out with raw := w }) ∧
  (usedBits .rmpa = ~~~0xFF07FC00 ∧ usedBits .mulx = ~~~0xFF001FFF ∧ usedBits .skp = ~~~0xFF00003F ∧
    usedBits .jam = ~~~0xFF03FFFF ∧ usedBits .choRdal = ~~~0xFF007FFF) ∧
  (∀ i : Instr, i.op ≠ .raw → encode i &&& ~~~(usedBits i.op) = 0) ∧
  (∀ w w' : Word, (decode w).op ≠ .raw → w &&& ~~~(usedBits (decode w).op) = 0 → w' &&& ~~~(usedBits (decode w').op) = 0 →
    decode w = decode w' → w = w')

/-- R25: the 5-bit codes of the OpIds as the table lists them; they are pairwise different, 26 to 31 are never
produced, and codes 0 to 17 are the opcode field value of the instruction. -/
def Obligations.OpIdCodesDistinct : Prop :=
  [OpId.rda, .rmpa, .wra, .wrap, .rdax, .rdfx, .wrax, .wrhx, .wrlx, .maxx, .mulx, .log, .exp, .sof, .and, .or, .xor,
    .skp, .wlds, .wldr, .jam, .choRda, .choSof, .choRdal, .raw, .nop].map Table.opIdCode =
    (List.range 26).map (BitVec.ofNat 5) ∧
  (∀ a b : OpId, Table.opIdCode a = Table.opIdCode b → a = b) ∧
  (∀ a : OpId, (Table.opIdCode a).toNat ≤ 25) ∧
  (∀ w : Word, (Table.opIdCode (decode w).op).toNat ≤ 17 → w.extractLsb' 19 5 = Table.opIdCode (decode w).op)

/-! ## The block as a whole -/

/-- R11: every instruction, in every state, answers a next state in which nothing but the output record differs
(no fault, no refusal, no side effect on memory, ports or host); the record is a function of the ports. -/
def Obligations.DecodeTotalDeterministicNoSideEffect : Prop :=
  ∀ i : Instr, ∃ f : Word → Slot → Bool → Record,
    ∀ s : State, exec i s = .next { s with out := f s.word s.addr s.suppressRaw }

/-- R62: on the word at the input port, the meanings of the instructions give the record of the decode
algorithm, whose loop over descriptors, skip sum and suppression stage the spec writes in one place. -/
def Obligations.MeaningsImplementDecodeAlgorithm : Prop :=
  ∀ s : State, exec (decode s.word) s = .next { s with out := blockRecord s.word s.addr s.suppressRaw }

/-- R24: the fields of the output record. -/
def Obligations.RecordFieldsAsPorts : Prop :=
  ∀ (i : Instr) (s : State), ∃ t, exec i s = .next t ∧
    t.out.addr = s.addr ∧ t.out.raw = s.word ∧ t.out.op = i.op ∧ t.out.op ≠ .nop ∧
    (t.out.isRaw = true ↔ t.out.op = .raw) ∧
    t.out.nopnd = (Table.descriptors i.op).length ∧ t.out.nopnd ≤ 3 ∧ (i.op = .raw → t.out.nopnd = 0) ∧
    (t.out.nopnd ≤ 0 → t.out.opnd0 = .null) ∧ (t.out.nopnd ≤ 1 → t.out.opnd1 = .null) ∧
    (t.out.nopnd ≤ 2 → t.out.opnd2 = .null) ∧
    (t.out.isSkip = true ↔ t.out.op = .skp) ∧
    (∀ flags offset, i = .skp flags offset → t.out.target.toInt = (s.addr.toNat : Int) + 1 + offset.toInt ∧
      (t.out.targetValid = true ↔ 0 ≤ t.out.target.toInt ∧ t.out.target.toInt ≤ 127)) ∧
    (i.op ≠ .skp → t.out.target = 0 ∧ t.out.targetValid = false) ∧
    t.out.opOut = (if t.out.op = .raw ∧ s.suppressRaw = true then .nop else t.out.op) ∧
    t.out.nopndOut = (if t.out.opOut = .nop then 0 else t.out.nopnd)

/-- R26 with R64 and R77: on the word at the input port, every operand has the kind, place, scale and table of
its descriptor, the bits of the word at that place, and the integer its kind converts them to; `named` is
false exactly for a register number without a name. -/
def Obligations.OperandsAreConvertedFields : Prop :=
  ∀ s : State, ∃ t, exec (decode s.word) s = .next t ∧
    (t.out.operands t.out.nopnd).map (fun o => (⟨o.kind, ⟨o.hi, o.lo⟩, o.fbits, o.table⟩ : Descriptor)) =
      Table.descriptors t.out.op ∧
    ∀ o ∈ [t.out.opnd0, t.out.opnd1, t.out.opnd2], o = .null ∨
      (o.kind ≠ .none ∧ o.lo ≤ o.hi ∧ o.hi ≤ 18 ∧
        o.field.toNat = s.word.toNat / 2 ^ o.lo % 2 ^ (o.hi - o.lo + 1) ∧
        (o.kind = .sint ∨ o.kind = .frac → o.num.toInt =
          if o.field.toNat < 2 ^ (o.hi - o.lo) then (o.field.toNat : Int)
          else (o.field.toNat : Int) - 2 ^ (o.hi - o.lo + 1)) ∧
        (o.kind ≠ .sint → o.kind ≠ .frac → o.num.toInt = o.field.toNat) ∧
        o.fbits ≤ 11 ∧ (o.kind ≠ .frac → o.fbits = 0) ∧
        (o.named = false ↔ o.kind = .reg ∧ regName (o.field.setWidth 6) = none))

/-- R9: a FRAC operand of `1 + m + n` bits with `n` fraction bits has the value `sext(field) / 2^n`, which ranges
from `-2^m` to `2^m - 2^-n`, in every width an operand field can have; and so does `sext_W` of the decode
algorithm (R62) in every width whatever. -/
def Obligations.FixedPointRange : Prop :=
  (∀ m n : Nat, 1 + m + n ≤ 19 →
    FracRange (1 + m + n) n (-(2 ^ m : Rat)) ((2 ^ m : Rat) - 1 / 2 ^ n) ∧
    ∀ (f : Field) (v : BitVec (1 + m + n)),
      (Operand.frac f ⟨1 + m + n, n⟩ v).fraction =
        (if v.toNat < 2 ^ (m + n) then (v.toNat : Rat) else (v.toNat : Rat) - 2 ^ (1 + m + n)) / 2 ^ n) ∧
  (∀ (m n v : Nat), v < 2 ^ (1 + m + n) →
    -(2 ^ m : Rat) ≤ (sextInt (1 + m + n) v : Rat) / 2 ^ n ∧
    (sextInt (1 + m + n) v : Rat) / 2 ^ n ≤ (2 ^ m : Rat) - 1 / 2 ^ n)

/-- R65: the least and greatest value of each of the five formats, the fields that hold them, the step, and which
operands are in which format. -/
def Obligations.CoefficientFormats : Prop :=
  FracRange 13 11 (-2) 1.99951171875 ∧ FracRange 10 8 (-2) 1.99609375 ∧ FracRange 6 5 (-1) 0.96875 ∧
  FracRange 6 1 (-16) 15.5 ∧ FracRange 9 8 (-1) 0.99609375 ∧
  fracValue 11 0x1000#13 = -2 ∧ fracValue 11 0x0FFF#13 = 1.99951171875 ∧ fracValue 11 0x0001#13 = 0.00048828125 ∧
  fracValue 8 0x200#10 = -2 ∧ fracValue 8 0x1FF#10 = 1.99609375 ∧ fracValue 8 0x001#10 = 0.00390625 ∧
  fracValue 5 0x20#6 = -1 ∧ fracValue 5 0x1F#6 = 0.96875 ∧ fracValue 5 0x01#6 = 0.03125 ∧
  fracValue 1 0x20#6 = -16 ∧ fracValue 1 0x1F#6 = 15.5 ∧ fracValue 1 0x01#6 = 0.5 ∧
  fracValue 8 0x100#9 = -1 ∧ fracValue 8 0x0FF#9 = 0.99609375 ∧ fracValue 8 0x001#9 = 1 / 2 ^ 8 ∧
  ∀ s : State, ∃ t, exec (decode s.word) s = .next t ∧
    (t.out.opnd0.kind = .frac ↔ t.out.op ∈ [OpId.rmpa, .log, .exp, .sof]) ∧
    (t.out.opnd1.kind = .frac ↔ t.out.op ∈ [OpId.rda, .wra, .wrap, .rdax, .rdfx, .wrax, .wrhx, .wrlx, .maxx, .log,
      .exp, .sof]) ∧
    (t.out.opnd2.kind = .frac ↔ t.out.op = .choSof) ∧
    ∀ o ∈ [t.out.opnd0, t.out.opnd1, t.out.opnd2], o.kind = .frac →
      (t.out.op ∈ [OpId.rdax, .rdfx, .wrax, .wrhx, .wrlx, .maxx] ∧ o.hi = 12 ∧ o.lo = 0 ∧ o.fbits = 11) ∨
      (t.out.op ∈ [OpId.log, .exp, .sof] ∧ o.hi = 18 ∧ o.lo = 6 ∧ o.fbits = 11) ∨
      (t.out.op ∈ [OpId.rda, .rmpa, .wra, .wrap] ∧ o.hi = 9 ∧ o.lo = 0 ∧ o.fbits = 8) ∨
      (t.out.op ∈ [OpId.exp, .sof] ∧ o.hi = 5 ∧ o.lo = 0 ∧ o.fbits = 5) ∨
      (t.out.op = .log ∧ o.hi = 5 ∧ o.lo = 0 ∧ o.fbits = 1) ∨
      (t.out.op = .choSof ∧ o.hi = 8 ∧ o.lo = 0 ∧ o.fbits = 8)

/-- R161: the three conditions, how each is reported, and that no other stops anything. E1 is `is_raw` with the
word kept; E2 is `target_valid = 0` with `is_skip = 1` and the exact target and offset kept; E3 is the only
stop, before any decode. -/
def Obligations.ConditionsAreReported : Prop :=
  (∀ s : State, ∃ t, exec (decode s.word) s = .next t ∧ t.out.raw = s.word ∧
    (t.out.isRaw = true ↔ 0x15 ≤ (s.word.extractLsb' 19 5).toNat ∨ s.word.extractLsb' 17 7 = 0b1010001#7) ∧
    (t.out.isRaw = true ↔ t.out.op = .raw)) ∧
  (∀ (i : Instr) (s : State), ∃ t, exec i s = .next t ∧
    (t.out.isSkip = true ∧ t.out.targetValid = false ↔
      ∃ flags offset, i = .skp flags offset ∧
        ((s.addr.toNat : Int) + 1 + offset.toInt < 0 ∨ 127 < (s.addr.toNat : Int) + 1 + offset.toInt)) ∧
    (∀ flags offset, i = .skp flags offset →
      t.out.target.toInt = (s.addr.toNat : Int) + 1 + offset.toInt ∧ t.out.opnd1.num.toInt = offset.toInt)) ∧
  (∀ s : State,
    (s.host.phase = .obtain ∧ s.host.image.length < 512 * s.host.options.program.val + 512 →
      step s = .fault .truncatedInput) ∧
    (¬(s.host.phase = .obtain ∧ s.host.image.length < 512 * s.host.options.program.val + 512) →
      ∃ t, step s = .next t))

/-- R165: one decode reports at most one of E1 and E2. -/
def Obligations.ConditionsAreExclusive : Prop :=
  ∀ (i : Instr) (s : State), ∃ t, exec i s = .next t ∧
    (t.out.isRaw = true → t.out.op = .raw) ∧ (t.out.op = .raw → t.out.isSkip = false) ∧
    ¬(t.out.isRaw = true ∧ (t.out.isSkip = true ∧ t.out.targetValid = false))

/-- R152: raw suppression puts NOP with no operands on `op_out` and `nopnd_out` in place of RAW and changes
nothing else of any record; without it `op_out` and `nopnd_out` are `op` and `nopnd`; NOP is never the result
of dispatch. With the rule's example. -/
def Obligations.NopStandsInForRaw : Prop :=
  (∀ (i : Instr) (s : State), ∃ t0 t1,
    exec i { s with suppressRaw := false } = .next t0 ∧ exec i { s with suppressRaw := true } = .next t1 ∧
    t0.out.op ≠ .nop ∧ t0.out.opOut = t0.out.op ∧ t0.out.nopndOut = t0.out.nopnd ∧
    t1.out = if t0.out.op = .raw then { t0.out with opOut := .nop, nopndOut := 0 } else t0.out) ∧
  (∀ s : State, s.word = 0x00A80000 → s.suppressRaw = true → ∃ t, exec (decode 0x00A80000) s = .next t ∧
    t.out.op = .raw ∧ t.out.isRaw = true ∧ t.out.opOut = .nop ∧ t.out.nopndOut = 0 ∧
    recordText t.out = "nop" ∧ commentText t.out = "0x00a80000")

/-- R76: no alias is recognised: the operation on the record, and the mnemonic printed without raw suppression,
are those of the base instruction whatever the operand values; and the short forms of R90 expand to words
that decode to the base instruction. -/
def Obligations.NoAliasIsRecognised : Prop :=
  (∀ (i : Instr) (s : State), ∃ t, exec i s = .next t ∧ t.out.op = i.op ∧
    (t.out.opOut = .nop ↔ i.op = .raw ∧ s.suppressRaw = true) ∧
    mnemonicText t.out.opOut ∉ ["clr", "not", "absa", "ldax", "jmp"]) ∧
  (∀ f : ShortForm, decode (encode (expandShort f)) = expandShort f) ∧
  (expandShort .clr).op = .and ∧ (expandShort .not).op = .xor ∧ (expandShort .absa).op = .maxx ∧
  (∀ r, (expandShort (.ldax r)).op = .rdfx) ∧ (expandShort .nop).op = .skp ∧
  (∀ o, (expandShort (.jmp o)).op = .skp)

/-! ## The instructions, rule by rule -/

/-- R100, R102, R103: RDA, WRA, WRAP (format FD). Which words they are, the record each gives, everything else
of the state unchanged; the ranges, corner cases and examples of the rules. -/
def Obligations.RdaWraWrapRecords : Prop :=
  (∀ w : Word, w.extractLsb' 19 5 = 0x00#5 → decode w = .rda (w.extractLsb' 10 9) (w.extractLsb' 0 10)) ∧
  (∀ w : Word, w.extractLsb' 19 5 = 0x02#5 → decode w = .wra (w.extractLsb' 10 9) (w.extractLsb' 0 10)) ∧
  (∀ w : Word, w.extractLsb' 19 5 = 0x03#5 → decode w = .wrap (w.extractLsb' 10 9) (w.extractLsb' 0 10)) ∧
  (∀ (s : State) (daddr : BitVec 9) (k : BitVec 10),
    let out := fun op => plainRecord s op 2
      ⟨.daddr, 18, 10, daddr.setWidth 19, daddr.setWidth 20, 0, .none, true⟩
      ⟨.frac, 9, 0, k.setWidth 19, k.signExtend 20, 8, .none, true⟩ .null
    exec (.rda daddr k) s = .next (s.withOut (out .rda)) ∧
    exec (.wra daddr k) s = .next (s.withOut (out .wra)) ∧
    exec (.wrap daddr k) s = .next (s.withOut (out .wrap))) ∧
  FracRange 10 8 (-2) 1.99609375 ∧
  PrintsAs 0x00000000 "rda 0,0.0" ∧ PrintsAs 0xFF000000 "rda 0,0.0" ∧ PrintsAs 0x00000200 "rda 0,-2.0" ∧
  PrintsAs 0x000001FF "rda 0,1.99609375" ∧ PrintsAs 0x000003FF "rda 0,-0.00390625" ∧
  Example 0x00019080 7 "rda 100,0.5" "del:0x0064 k:0x0080" ∧
  Example 0x001400C0 1 "wra 256,0.75" "del:0x0100 k:0x00c0" ∧
  Example 0x001FFF66 2 "wrap 511,-0.6015625" "del:0x01ff k:0x0366"

/-- R101: RMPA (format FK); `insn[18:10]` is ignored. -/
def Obligations.RmpaRecord : Prop :=
  (∀ w : Word, w.extractLsb' 19 5 = 0x01#5 → decode w = .rmpa (w.extractLsb' 0 10)) ∧
  (∀ (s : State) (k : BitVec 10), exec (.rmpa k) s = .next (s.withOut
      (plainRecord s .rmpa 1 ⟨.frac, 9, 0, k.setWidth 19, k.signExtend 20, 8, .none, true⟩ .null .null))) ∧
  decode 0x000FFFFF = decode 0x000803FF ∧ PrintsAs 0x000FFFFF "rmpa -0.00390625" ∧
  Example 0x00080100 3 "rmpa 1.0" "k:0x0100"

/-- R110 to R115: RDAX, RDFX, WRAX, WRHX, WRLX, MAXX (format FR). Every 6-bit register value is accepted, and
one without a name clears `named` only. -/
def Obligations.RegisterCoefficientRecords : Prop :=
  (∀ w : Word,
    (w.extractLsb' 19 5 = 0x04#5 → decode w = .rdax (w.extractLsb' 13 6) (w.extractLsb' 0 13)) ∧
    (w.extractLsb' 19 5 = 0x05#5 → decode w = .rdfx (w.extractLsb' 13 6) (w.extractLsb' 0 13)) ∧
    (w.extractLsb' 19 5 = 0x06#5 → decode w = .wrax (w.extractLsb' 13 6) (w.extractLsb' 0 13)) ∧
    (w.extractLsb' 19 5 = 0x07#5 → decode w = .wrhx (w.extractLsb' 13 6) (w.extractLsb' 0 13)) ∧
    (w.extractLsb' 19 5 = 0x08#5 → decode w = .wrlx (w.extractLsb' 13 6) (w.extractLsb' 0 13)) ∧
    (w.extractLsb' 19 5 = 0x09#5 → decode w = .maxx (w.extractLsb' 13 6) (w.extractLsb' 0 13))) ∧
  (∀ (s : State) (r : BitVec 6) (k : BitVec 13),
    let out := fun op => plainRecord s op 2
      ⟨.reg, 18, 13, r.setWidth 19, r.setWidth 20, 0, .regs, (regName r).isSome⟩
      ⟨.frac, 12, 0, k.setWidth 19, k.signExtend 20, 11, .none, true⟩ .null
    exec (.rdax r k) s = .next (s.withOut (out .rdax)) ∧
    exec (.rdfx r k) s = .next (s.withOut (out .rdfx)) ∧
    exec (.wrax r k) s = .next (s.withOut (out .wrax)) ∧
    exec (.wrhx r k) s = .next (s.withOut (out .wrhx)) ∧
    exec (.wrlx r k) s = .next (s.withOut (out .wrlx)) ∧
    exec (.maxx r k) s = .next (s.withOut (out .maxx))) ∧
  FracRange 13 11 (-2) 1.99951171875 ∧ regName 0x13 = none ∧
  PrintsAs 0x00227FFF "rdax 0x13,-0.00048828125" ∧ PrintsAs 0x0037EFFF "wrax REG31,1.99951171875" ∧
  PrintsAs 0x0032F000 "wrax DACR,-2.0" ∧ PrintsAs 0x00480000 "maxx SIN0_RATE,0.0" ∧
  PrintsAs 0x002C0000 "rdfx REG0,0.0" ∧
  Example 0x00228800 0 "rdax ADCL,1.0" "reg:0x14 k:0x0800" ∧
  Example 0x002C0400 9 "rdfx REG0,0.5" "reg:0x20 k:0x0400" ∧
  Example 0x0032C000 0 "wrax DACL,0.0" "reg:0x16 k:0x0000" ∧
  Example 0x003C3C00 0 "wrhx REG1,-0.5" "reg:0x21 k:0x1c00" ∧
  Example 0x0047E003 0 "wrlx REG31,0.00146484375" "reg:0x3f k:0x0003" ∧
  Example 0x00480001 0 "maxx SIN0_RATE,0.00048828125" "reg:0x00 k:0x0001"

/-- R116: MULX (format FM); `insn[12:0]` is ignored. -/
def Obligations.MulxRecord : Prop :=
  (∀ w : Word, w.extractLsb' 19 5 = 0x0A#5 → decode w = .mulx (w.extractLsb' 13 6)) ∧
  (∀ (s : State) (r : BitVec 6), exec (.mulx r) s = .next (s.withOut
      (plainRecord s .mulx 1 ⟨.reg, 18, 13, r.setWidth 19, r.setWidth 20, 0, .regs, (regName r).isSome⟩ .null .null))) ∧
  decode 0x00521FFF = decode 0x00520000 ∧ regName 0x08 = none ∧ PrintsAs 0x00510000 "mulx 0x08" ∧
  Example 0x00520000 0 "mulx POT0" "reg:0x10"

/-- R120, R121, R122: LOG (offset S4.1), EXP and SOF (offset S.5), format FS. -/
def Obligations.ScaleOffsetRecords : Prop :=
  (∀ w : Word,
    (w.extractLsb' 19 5 = 0x0B#5 → decode w = .log (w.extractLsb' 6 13) (w.extractLsb' 0 6)) ∧
    (w.extractLsb' 19 5 = 0x0C#5 → decode w = .exp (w.extractLsb' 6 13) (w.extractLsb' 0 6)) ∧
    (w.extractLsb' 19 5 = 0x0D#5 → decode w = .sof (w.extractLsb' 6 13) (w.extractLsb' 0 6))) ∧
  (∀ (s : State) (k : BitVec 13) (d : BitVec 6),
    let out := fun op fbits => plainRecord s op 2
      ⟨.frac, 18, 6, k.setWidth 19, k.signExtend 20, 11, .none, true⟩
      ⟨.frac, 5, 0, d.setWidth 19, d.signExtend 20, fbits, .none, true⟩ .null
    exec (.log k d) s = .next (s.withOut (out .log 1)) ∧
    exec (.exp k d) s = .next (s.withOut (out .exp 5)) ∧
    exec (.sof k d) s = .next (s.withOut (out .sof 5))) ∧
  FracRange 13 11 (-2) 1.99951171875 ∧ FracRange 6 1 (-16) 15.5 ∧ FracRange 6 5 (-1) 0.96875 ∧
  PrintsAs 0x005C0020 "log -2.0,-16.0" ∧ PrintsAs 0x005BFFDF "log 1.99951171875,15.5" ∧
  PrintsAs 0x00680060 "sof 0.00048828125,-1.0" ∧ PrintsAs 0x006FFFDF "sof -0.00048828125,0.96875" ∧
  Example 0x005A003F 0 "log 1.0,-0.5" "k:0x0800 k:0x003f" ∧
  Example 0x00620000 0 "exp 1.0,0.0" "k:0x0800 k:0x0000" ∧
  Example 0x006E0010 0 "sof -1.0,0.5" "k:0x1800 k:0x0010"

/-- R123, R124, R125: AND, OR, XOR (format FL), a 19-bit mask. -/
def Obligations.MaskRecords : Prop :=
  (∀ w : Word,
    (w.extractLsb' 19 5 = 0x0E#5 → decode w = .and (w.extractLsb' 0 19)) ∧
    (w.extractLsb' 19 5 = 0x0F#5 → decode w = .or (w.extractLsb' 0 19)) ∧
    (w.extractLsb' 19 5 = 0x10#5 → decode w = .xor (w.extractLsb' 0 19))) ∧
  (∀ (s : State) (mask : BitVec 19),
    let out := fun op => plainRecord s op 1 ⟨.uint, 18, 0, mask, mask.setWidth 20, 0, .none, true⟩ .null .null
    exec (.and mask) s = .next (s.withOut (out .and)) ∧
    exec (.or mask) s = .next (s.withOut (out .or)) ∧
    exec (.xor mask) s = .next (s.withOut (out .xor))) ∧
  PrintsAs 0x00700000 "and 0" ∧ PrintsAs 0x0087FFFF "xor 524287" ∧
  Example 0x0077FFFF 0 "and 524287" "val:0x7ffff" ∧ Example 0x00780001 0 "or 1" "val:0x00001" ∧
  Example 0x00855555 0 "xor 349525" "val:0x55555"

/-- R130: SKP (format FP); `insn[5:0]` is ignored, a target outside 0 to 127 clears `target_valid` and nothing
else. -/
def Obligations.SkpRecord : Prop :=
  (∀ w : Word, w.extractLsb' 19 5 = 0x11#5 → decode w = .skp (w.extractLsb' 14 5) (w.extractLsb' 6 8)) ∧
  (∀ (s : State) (flags : BitVec 5) (offset : BitVec 8), exec (.skp flags offset) s =
    .next (s.withOut {
    addr := s.addr, raw := s.word, op := .skp, isRaw := false, nopnd := 2
    opnd0 := ⟨.flags, 18, 14, flags.setWidth 19, flags.setWidth 20, 0, .skpFlags, true⟩
    opnd1 := ⟨.sint, 13, 6, offset.setWidth 19, offset.signExtend 20, 0, .none, true⟩
    opnd2 := .null
    isSkip := true
    target := BitVec.ofInt 9 ((s.addr.toNat : Int) + 1 + offset.toInt)
    targetValid := decide (0 ≤ (s.addr.toNat : Int) + 1 + offset.toInt ∧ (s.addr.toNat : Int) + 1 + offset.toInt ≤ 127)
    opOut := .skp, nopndOut := 2 })) ∧
  PrintsAs 0x00880000 "skp 0,0" ∧ PrintsAs 0x008FC000 "skp RUN|ZRC|ZRO|GEZ|NEG,0" ∧
  decode 0x008C00BF = decode 0x008C0080 ∧ Example 0x008C0080 0 "skp RUN,2" "flags:0x10 offset:0x02" ∧
  (∀ s : State, s.word = 0x008C0080 → s.addr = 0 → ∃ t, exec (decode 0x008C0080) s = .next t ∧
    t.out.target = 3 ∧ t.out.targetValid = true ∧
    operandTexts false (addLabel [] t.out) t.out = ["RUN", "addr03"])

/-- R141: WLDS (format FWS). -/
def Obligations.WldsRecord : Prop :=
  (∀ w : Word, w.extractLsb' 18 6 = 0b100100#6 →
    decode w = .wlds (w.extractLsb' 17 1) (w.extractLsb' 8 9) (w.extractLsb' 0 8)) ∧
  (∀ (s : State) (n : BitVec 1) (f : BitVec 9) (a : BitVec 8), exec (.wlds n f a) s = .next (s.withOut
      (plainRecord s .wlds 3 ⟨.enum, 17, 17, n.setWidth 19, n.setWidth 20, 0, .lfo2s, true⟩
      ⟨.uint, 16, 8, f.setWidth 19, f.setWidth 20, 0, .none, true⟩
      ⟨.uint, 7, 0, a.setWidth 19, a.setWidth 20, 0, .none, true⟩))) ∧
  PrintsAs 0x00900000 "wlds SIN0,0,0" ∧ Example 0x0093FFFF 0 "wlds SIN1,511,255" "val:0x1 val:0x1ff val:0xff"

/-- R142: WLDR (format FWR); the number of the amplitude operand is its 2-bit code. -/
def Obligations.WldrRecord : Prop :=
  (∀ w : Word, w.extractLsb' 18 6 = 0b100101#6 →
    decode w = .wldr (w.extractLsb' 17 1) (w.extractLsb' 2 15) (w.extractLsb' 0 2)) ∧
  (∀ (s : State) (n : BitVec 1) (f : BitVec 15) (a : BitVec 2), exec (.wldr n f a) s = .next (s.withOut
      (plainRecord s .wldr 3 ⟨.enum, 17, 17, n.setWidth 19, n.setWidth 20, 0, .lfo2r, true⟩
      ⟨.sint, 16, 2, f.setWidth 19, f.signExtend 20, 0, .none, true⟩
      ⟨.enum, 1, 0, a.setWidth 19, a.setWidth 20, 0, .rampAmp, true⟩))) ∧
  PrintsAs 0x0096FFFC "wldr RMP1,16383,4096" ∧ PrintsAs 0x0097FFFD "wldr RMP1,-1,2048" ∧
  Example 0x00950003 0 "wldr RMP0,-16384,512" "val:0x0 val:0x4000 val:0x3"

/-- R143: JAM (format FJ); `insn[17:0]` is ignored. -/
def Obligations.JamRecord : Prop :=
  (∀ w : Word, w.extractLsb' 19 5 = 0x13#5 → decode w = .jam (w.extractLsb' 18 1)) ∧
  (∀ (s : State) (n : BitVec 1), exec (.jam n) s = .next (s.withOut
      (plainRecord s .jam 1 ⟨.enum, 18, 18, n.setWidth 19, n.setWidth 20, 0, .lfo2r, true⟩ .null .null))) ∧
  decode 0x009FFFFF = decode 0x009C0000 ∧ PrintsAs 0x009FFFFF "jam RMP1" ∧
  Example 0x00980000 0 "jam RMP0" "val:0x0"

/-- R144: CHO RDA (format FCA). -/
def Obligations.ChoRdaRecord : Prop :=
  (∀ w : Word, w.extractLsb' 17 7 = 0b1010000#7 →
    decode w = .choRda (w.extractLsb' 15 2) (w.extractLsb' 9 6) (w.extractLsb' 0 9)) ∧
  (∀ (s : State) (n : BitVec 2) (flags : BitVec 6) (daddr : BitVec 9), exec (.choRda n flags daddr) s =
    .next (s.withOut
      (plainRecord s .choRda 3 ⟨.enum, 16, 15, n.setWidth 19, n.setWidth 20, 0, .lfo4, true⟩
      ⟨.flags, 14, 9, flags.setWidth 19, flags.setWidth 20, 0, .choFlags, true⟩
      ⟨.daddr, 8, 0, daddr.setWidth 19, daddr.setWidth 20, 0, .none, true⟩))) ∧
  PrintsAs 0x00A00000 "cho rda,SIN0,0,0" ∧ PrintsAs 0x00A1FFFF "cho rda,RMP1,NA|RPTR2|COMPA|COMPC|REG|COS,511" ∧
  Example 0x00A00D2C 0 "cho rda,SIN0,COMPC|REG,300" "val:0x0 flags:0x06 del:0x012c"

/-- R145: CHO SOF (format FCS). -/
def Obligations.ChoSofRecord : Prop :=
  (∀ w : Word, w.extractLsb' 17 7 = 0b1010010#7 →
    decode w = .choSof (w.extractLsb' 15 2) (w.extractLsb' 9 6) (w.extractLsb' 0 9)) ∧
  (∀ (s : State) (n : BitVec 2) (flags : BitVec 6) (d : BitVec 9), exec (.choSof n flags d) s =
    .next (s.withOut
      (plainRecord s .choSof 3 ⟨.enum, 16, 15, n.setWidth 19, n.setWidth 20, 0, .lfo4, true⟩
      ⟨.flags, 14, 9, flags.setWidth 19, flags.setWidth 20, 0, .choFlags, true⟩
      ⟨.frac, 8, 0, d.setWidth 19, d.signExtend 20, 8, .none, true⟩))) ∧
  FracRange 9 8 (-1) 0.99609375 ∧ PrintsAs 0x00A482FF "cho sof,SIN1,COS,0.99609375" ∧
  Example 0x00A54500 0 "cho sof,RMP0,NA|REG,-1.0" "val:0x2 flags:0x22 k:0x0100"

/-- R146: CHO RDAL (format FCL); `insn[14:0]` is ignored. -/
def Obligations.ChoRdalRecord : Prop :=
  (∀ w : Word, w.extractLsb' 17 7 = 0b1010011#7 → decode w = .choRdal (w.extractLsb' 15 2)) ∧
  (∀ (s : State) (n : BitVec 2), exec (.choRdal n) s = .next (s.withOut
      (plainRecord s .choRdal 1 ⟨.enum, 16, 15, n.setWidth 19, n.setWidth 20, 0, .lfo4, true⟩ .null .null))) ∧
  decode 0x00A7FFFF = decode 0x00A78000 ∧ PrintsAs 0x00A7FFFF "cho rdal,RMP1" ∧
  Example 0x00A68000 0 "cho rdal,SIN1" "val:0x1"

/-- R150: RAW. The word is kept whole; a RAW is never skip-class whatever its bits; nothing else of the state
changes. -/
def Obligations.RawRecord : Prop :=
  (∀ w : Word, 0x15 ≤ (w.extractLsb' 19 5).toNat ∨ w.extractLsb' 17 7 = 0b1010001#7 → decode w = .raw w) ∧
  (∀ w : Word, (0x15 ≤ (w.extractLsb' 19 5).toNat ∨ w.extractLsb' 17 7 = 0b1010001#7) ↔
    (w &&& 0x00F80000 = 0x00A80000 ∨ w &&& 0x00F00000 = 0x00B00000 ∨ w &&& 0x00C00000 = 0x00C00000 ∨
      w &&& 0x00FE0000 = 0x00A20000)) ∧
  (∀ (s : State) (w : Word), exec (.raw w) s =
    .next (s.withOut {
    addr := s.addr, raw := s.word, op := .raw, isRaw := true, nopnd := 0
    opnd0 := .null, opnd1 := .null, opnd2 := .null
    isSkip := false, target := 0, targetValid := false
    opOut := if s.suppressRaw = true then .nop else .raw, nopndOut := 0 })) ∧
  decode 0xFFFFFFFF = .raw 0xFFFFFFFF ∧ decode 0xFF000000 = .rda 0 0 ∧ decode 0x00A21234 = .raw 0x00A21234 ∧
  Example 0x00A80000 0 "raw" "0x00a80000"

/-! ## The skip target -/

/-- R131: the target is the exact integer `addr + 1 + offset`, between -127 and 255, on the 9-bit bus; offset 0
names the next slot, -1 the skip itself, -2 the slot before it. -/
def Obligations.SkipTargetIsExact : Prop :=
  ∀ (s : State) (flags : BitVec 5) (offset : BitVec 8), ∃ t, exec (.skp flags offset) s = .next t ∧
    t.out.target.toInt = (s.addr.toNat : Int) + 1 + offset.toInt ∧
    -127 ≤ t.out.target.toInt ∧ t.out.target.toInt ≤ 255 ∧
    (offset.toInt = 0 → t.out.target.toInt = s.addr.toNat + 1) ∧
    (offset.toInt = -1 → t.out.target.toInt = s.addr.toNat) ∧
    (offset.toInt = -2 → t.out.target.toInt = (s.addr.toNat : Int) - 1)

/-- R132: `target_valid = 1` exactly when `0 <= target <= 127`, which in terms of the inputs fails exactly when
`offset > 126 - addr` or `offset < -1 - addr`; the target is not altered, whether valid or not. -/
def Obligations.SkipTargetIsValidated : Prop :=
  ∀ (s : State) (flags : BitVec 5) (offset : BitVec 8), ∃ t, exec (.skp flags offset) s = .next t ∧
    (t.out.targetValid = true ↔ 0 ≤ t.out.target.toInt ∧ t.out.target.toInt ≤ 127) ∧
    (t.out.targetValid = false ↔
      126 - (s.addr.toNat : Int) < offset.toInt ∨ offset.toInt < -1 - (s.addr.toNat : Int)) ∧
    t.out.target.toInt = (s.addr.toNat : Int) + 1 + offset.toInt

/-- R134: an invalid target is not fatal. The operation and both operands are decoded as for any skip, the number
of the offset is written in every text mode, no label is made, one warning is raised, and the run succeeds
unless warnings are escalated. That a warning is its slot, offset and target (log 9) and that the policy is one
bit (log 10) are the model's choice. -/
def Obligations.InvalidTargetIsNotFatal : Prop :=
  ∀ (s : State) (flags : BitVec 5) (offset : BitVec 8),
    126 - (s.addr.toNat : Int) < offset.toInt ∨ offset.toInt < -1 - (s.addr.toNat : Int) →
    ∃ t, exec (.skp flags offset) s = .next t ∧ t.out.op = .skp ∧ t.out.nopnd = 2 ∧
      t.out.opnd0.field = flags.setWidth 19 ∧ t.out.opnd1.num.toInt = offset.toInt ∧ t.out.targetValid = false ∧
      (∀ relative labels, skipOperandText relative labels t.out = toString offset.toInt) ∧
      (∀ labels, addLabel labels t.out = labels) ∧
      (∃ w, t.out.warning = some w ∧ w.addr = s.addr ∧ w.offset.toInt = offset.toInt ∧
        w.target.toInt = (s.addr.toNat : Int) + 1 + offset.toInt) ∧
      (∀ records, runResult false records = .succeeded)

/-- R136: every slot can name every slot, and invalid targets remain possible at every slot: at slot 0 the
offsets -128 to -2 and 127, at slot 127 the offsets 0 to 127. -/
def Obligations.EverySlotReachesEverySlot : Prop :=
  (∀ (s : State) (flags : BitVec 5) (b : Slot), ∃ offset t, exec (.skp flags offset) s = .next t ∧
    t.out.targetValid = true ∧ t.out.target.toInt = b.toNat ∧ (s.addr = 0 → b = 127 → offset.toInt = 126) ∧
    (s.addr = 127 → b = 0 → offset.toInt = -128)) ∧
  (∀ (s : State) (flags : BitVec 5), ∃ offset t, exec (.skp flags offset) s = .next t ∧
    t.out.targetValid = false) ∧
  (∀ (s : State) (flags : BitVec 5) (offset : BitVec 8), ∃ t, exec (.skp flags offset) s = .next t ∧
    (s.addr = 0 → (t.out.targetValid = false ↔ offset.toInt ≤ -2 ∨ offset.toInt = 127)) ∧
    (s.addr = 127 → (t.out.targetValid = false ↔ 0 ≤ offset.toInt)))

/-! ## Names -/

/-- R28 to R32: the names tables. The unnamed register values are those the rule lists (sixteen, though it counts
fifteen, log 12) and show as `0x` and two lower-case hex digits; flag names come highest bit first. -/
def Obligations.NamesTables : Prop :=
  (∀ r : BitVec 6, regName r = none ↔ (0x08 ≤ r.toNat ∧ r.toNat ≤ 0x0F) ∨ r.toNat = 0x13 ∨
    (0x19 ≤ r.toNat ∧ r.toNat ≤ 0x1F)) ∧
  (∀ r : BitVec 6, regName r = none → regLabel r = "0x" ++ hexDigits 2 r.toNat) ∧
  [0x00, 0x01, 0x02, 0x03, 0x04, 0x05, 0x06, 0x07, 0x10, 0x11, 0x12, 0x14, 0x15, 0x16, 0x17, 0x18].map regName =
    ["SIN0_RATE", "SIN0_RANGE", "SIN1_RATE", "SIN1_RANGE", "RMP0_RATE", "RMP0_RANGE", "RMP1_RATE", "RMP1_RANGE",
      "POT0", "POT1", "POT2", "ADCL", "ADCR", "DACL", "DACR", "ADDR_PTR"].map some ∧
  (∀ n : BitVec 5, regName (0b1#1 ++ n) = some ("REG" ++ toString n.toNat)) ∧
  (∀ m : BitVec 5, setFlagNames .skpFlags (m.setWidth 19) =
    (if m.getLsbD 4 then ["RUN"] else []) ++ (if m.getLsbD 3 then ["ZRC"] else []) ++
    (if m.getLsbD 2 then ["ZRO"] else []) ++ (if m.getLsbD 1 then ["GEZ"] else []) ++
    (if m.getLsbD 0 then ["NEG"] else [])) ∧
  (∀ m : BitVec 6, setFlagNames .choFlags (m.setWidth 19) =
    (if m.getLsbD 5 then ["NA"] else []) ++ (if m.getLsbD 4 then ["RPTR2"] else []) ++
    (if m.getLsbD 3 then ["COMPA"] else []) ++ (if m.getLsbD 2 then ["COMPC"] else []) ++
    (if m.getLsbD 1 then ["REG"] else []) ++ (if m.getLsbD 0 then ["COS"] else [])) ∧
  [0, 1].map (nameIn .lfo2s) = ["SIN0", "SIN1"] ∧ [0, 1].map (nameIn .lfo2r) = ["RMP0", "RMP1"] ∧
  [0, 1, 2, 3].map (nameIn .lfo4) = ["SIN0", "SIN1", "RMP0", "RMP1"] ∧
  [0, 1, 2, 3].map (nameIn .rampAmp) = ["4096", "2048", "1024", "512"]

/-! ## The program buffer and the fetch front end -/

/-- R43: a slot's word is its four bytes at `4a` to `4a + 3`, the first in bits 31 to 24; no other address is
read as a word. -/
def Obligations.FetchIsBigEndianAndAligned : Prop :=
  (∀ (m : Memory) (a : Slot),
    slotWord m a = m.read (4 * a.toNat) ++ m.read (4 * a.toNat + 1) ++ m.read (4 * a.toNat + 2) ++
      m.read (4 * a.toNat + 3) ∧
    (slotWord m a).extractLsb' 24 8 = m.read (4 * a.toNat) ∧
    (slotWord m a).extractLsb' 0 8 = m.read (4 * a.toNat + 3) ∧
    memRead m (4 * a.toNat) = some (slotWord m a)) ∧
  (∀ (m : Memory) (x : Nat), (memRead m x).isSome = true ↔ x % 4 = 0 ∧ x ≤ 508)

/-- 20_memory section 1 and log 2: a program of bytes placed in the buffer reads back byte by byte, and the
canonical form of the buffer makes equal buffers equal data. -/
def Obligations.BufferHoldsTheProgram : Prop :=
  (∀ (bytes : List Byte) (x : Nat), (Memory.ofBytes bytes).read x = bytes.getD x 0) ∧
  (∀ m n : Memory, m.wf = true → n.wf = true → (∀ x, m.read x = n.read x) → m = n)

/-- A byte written from outside reads back and every other byte is unchanged; a word placed in a slot is that
slot's word and every other slot keeps its own (log 2, log 4). -/
def Obligations.PlacedBytesReadBack : Prop :=
  (∀ (m : Memory) (x y : Nat) (b : Byte), m.wf = true →
    (m.write x b).read y = if y = x then b else m.read y) ∧
  (∀ (m : Memory) (a c : Slot) (w : Word), m.wf = true →
    slotWord (placeWord m a w) c = if c = a then w else slotWord m c)

/-! ## Steps -/

/-- R42, R174: with a slot to present, one step drives the ports with the slot's word, its index and
`suppress_raw`, runs exactly the instruction that word decodes to, which is well-formed, and keeps its record;
it changes no byte of the buffer. One presentation is one step by the model's choice (log 5). -/
def Obligations.StepRunsTheDecodedInstruction : Prop :=
  ∀ (s : State) (p : Presentation) (rest : List Presentation) (i : Instr),
    s.host.phase = .decode → s.host.pending = p :: rest → decode (slotWord s.mem p.addr) = i →
    i.wf = true ∧ ∃ t,
      exec i { s with word := slotWord s.mem p.addr, addr := p.addr, suppressRaw := p.suppressRaw } = .next t ∧
      step s = .next { t with
        host := { t.host with pending := rest, records := insertRecord t.out t.host.records } } ∧
      t.mem = s.mem ∧ t.host = s.host

/-- A word placed where the next step fetches is the word that step decodes (log 4). -/
def Obligations.PlacedWordRunsNext : Prop :=
  ∀ (s : State) (nbits w : Nat), s.mem.wf = true →
    ∃ t, step (s.withFetchWord nbits w) = .next t ∧ t.word = BitVec.ofNat 32 (w % 2 ^ nbits) ∧
      t.out = blockRecord t.word t.addr t.suppressRaw ∧
      (t.addr, t.suppressRaw) = ((nextPresentation s).addr, (nextPresentation s).suppressRaw)

/-- R20: the record a presentation gives is a function of the slot's word, its index and `suppress_raw` and of
nothing else: two machines that agree on the buffer give the same record, whatever their ports, their
earlier records and their options are (the division into steps: log 5). -/
def Obligations.BlockIsStateless : Prop :=
  ∀ (s u : State) (p : Presentation) (rest more : List Presentation),
    s.host.phase = .decode → s.host.pending = p :: rest → u.host.phase = .decode → u.host.pending = p :: more →
    slotWord s.mem p.addr = slotWord u.mem p.addr →
    ∃ t v, step s = .next t ∧ step u = .next v ∧ t.out = v.out ∧
      (t.word, t.addr, t.suppressRaw) = (v.word, v.addr, v.suppressRaw)

/-- R50 (a), R46, R52: the buffer changes only when the host obtains a program, at the start of a run, and when
it releases it, after the run (log 5). -/
def Obligations.BufferIsReadOnlyInARun : Prop :=
  ∀ s t : State, step s = .next t → s.host.phase ≠ .obtain → s.host.phase ≠ .release →
    t.mem = s.mem ∧ ∀ x, t.mem.read x = s.mem.read x

/-- R50 (b): decodes of different slots commute: presented in either order they leave the same records, the same
buffer and the same presentations to come (the queue and the kept records: log 5). -/
def Obligations.DecodesCommute : Prop :=
  ∀ (s u : State) (p q : Presentation) (rest : List Presentation),
    s.RecordsAscending → s.host.phase = .decode → s.host.pending = p :: q :: rest →
    u = { s with host := { s.host with pending := q :: p :: rest } } → p.addr ≠ q.addr →
    ∃ s1 s2 u1 u2, step s = .next s1 ∧ step s1 = .next s2 ∧ step u = .next u1 ∧ step u1 = .next u2 ∧
      s2.host = u2.host ∧ s2.mem = u2.mem

/-- After reset the invariant holds, in it that the outputs are the function of the inputs (R37), and the host
holds nothing of an earlier run (R21). The values at the ports (log 1), in the buffer (log 2) and of the host
(log 3) at reset are the model's choice. -/
def Obligations.ResetMeetsTheInvariant : Prop :=
  State.reset.Inv ∧ State.reset.host.records = [] ∧ State.reset.host.labels = [] ∧ State.reset.host.lines = [] ∧
    State.reset.host.output = [] ∧ State.reset.host.warnings = [] ∧ State.reset.host.result = .running

/-- R192: the first move of a run is to obtain the program, before any slot is presented; a short buffer is refused;
else the window is in the buffer, every slot is to be presented in ascending order, nothing is kept of an
earlier run, and the ports, the record, the options and the image are as they were. R192 gives no order and R171
leaves order and `suppress_raw` to the host: the ascending order with one `suppress_raw` for all slots is the
model's choice (logs 4, 5), as are the window (log 7) and the held ports (log 15). The machine after reset makes this move first, and stops, no input being supplied (log 3). -/
def Obligations.RunStartsByObtainingTheProgram : Prop :=
  (∀ s : State, s.host.phase = .obtain →
    (s.host.image.length < 512 * s.host.options.program.val + 512 → step s = .fault .truncatedInput) ∧
    (512 * s.host.options.program.val + 512 ≤ s.host.image.length → ∃ t, step s = .next t ∧
      (∀ x, x < 512 → t.mem.read x = s.host.image.getD (512 * s.host.options.program.val + x) 0) ∧
      t.host = { Disassembler.reset with
        options := s.host.options, escalate := s.host.escalate, image := s.host.image, phase := .decode,
        pending := (List.range 128).map (fun a => ⟨BitVec.ofNat 7 a, s.host.options.suppressRaw⟩) } ∧
      t = { s with mem := t.mem, host := t.host })) ∧
  State.reset.host.phase = .obtain ∧ step State.reset = .fault .truncatedInput

/-- R199, R176: the buffer of a run is bounded at 512 bytes; when the run completes, its text goes to the output
stream and the buffer, the text accumulator, the records and the label table are released; the ports, the
record, the warnings, the result, the options and the image are as they were (a move of its own: log 5; what
stays with the caller: log 17; the ports: log 15). -/
def Obligations.RunReleasesWhatItOwns : Prop :=
  (∀ m : Memory, m.wf = true → m.length ≤ 512 ∧ ∀ x, 512 ≤ x → m.read x = 0) ∧
  (∀ s : State, s.host.phase = .release → step s = .next { s with
    mem := []
    host := { s.host with
      phase := .finished, records := [], labels := [], lines := [], output := s.host.lines } })

/-- Every step keeps the invariant: the outputs are the function of the inputs, the buffer keeps its form, every
kept record is the block's record of its slot's word, in address order, labels, lines and warnings are those of
the records, and a run that has ended keeps no buffer, text, record or label (R20, R37, R50, R174 to R179, R199).
The model's choice in it: the canonical form of the buffer (log 2); the moves that the clauses are told apart by,
and that a slot decoded again keeps one record (log 5); a warning as data (log 9) and the escalation policy
(log 10); the ports held between presentations (log 15); that what a run owned is emptied at its end (log 17). -/
def Obligations.StepKeepsTheInvariant : Prop :=
  ∀ s t : State, s.Inv → step s = .next t → t.Inv

/-! ## The host -/

/-- R175: the label table lists the targets of the valid skips in order of first appearance, each once, each with
the text of its address; a record that is no skip, or whose target is out of range, contributes nothing; in
relative mode there is no table. -/
def Obligations.LabelTableIsFirstAppearance : Prop :=
  (∀ records : List Record,
    labelTable records =
      ((records.filter fun r => r.isSkip && r.targetValid).map Record.targetSlot).eraseDups.map
        (fun a => (a, labelText a)) ∧
    ((labelTable records).map Prod.fst).Nodup) ∧
  (∀ records : List Record, labelsFor true records = [] ∧ labelsFor false records = labelTable records)

/-- R83: in label mode a skip with a valid target shows the label of the target, which pass 2 has put in the
table; in relative mode, or with a target out of range, it shows the offset as a signed decimal number. -/
def Obligations.SkipShowsLabelOrOffset : Prop :=
  (∀ (records : List Record) (r : Record), r ∈ records → r.isSkip = true → r.targetValid = true →
    skipOperandText false (labelsFor false records) r = labelText r.targetSlot) ∧
  (∀ (s : State) (flags : BitVec 5) (offset : BitVec 8), ∃ t, exec (.skp flags offset) s = .next t ∧
    ∀ relative labels, relative = true ∨ t.out.targetValid = false →
      operandTexts relative labels t.out = [t.out.opnd0.text, toString offset.toInt])

/-- R84 with R175 and R179: a label is `addr` and the address in at least two decimal digits; a line starts with
the label of its address and a colon, before the first tab, exactly when some valid skip names that address
and label mode is active. -/
def Obligations.LabelsStandWhereReferenced : Prop :=
  (∀ a : Slot, (a.toNat < 10 → labelText a = "addr0" ++ toString a.toNat) ∧
    (10 ≤ a.toNat → labelText a = "addr" ++ toString a.toNat)) ∧
  (∀ records : List Record, ∀ a : Slot,
    labelPrefix (labelsFor false records) a = (if ∃ r ∈ records, r.isSkip = true ∧ r.targetValid = true ∧
      r.targetSlot = a then labelText a ++ ":" else "") ∧
    labelPrefix (labelsFor true records) a = "") ∧
  (∀ (relative : Bool) (labels : List (Slot × String)) (r : Record), ∃ rest,
    renderLine relative labels r = labelPrefix labels r.addr ++ "\t" ++ rest)

/-- R177, R178: when the host renders, it writes one warning for each skip out of range, in address order, in
either text mode, unless quiet; the run succeeds unless warnings are escalated (log 10). -/
def Obligations.WarningsUnlessQuiet : Prop :=
  ∀ s : State, s.host.phase = .render → ∃ t, step s = .next t ∧ t.host.phase = .release ∧
    (s.host.options.quiet = true → t.host.warnings = []) ∧
    (s.host.options.quiet = false → ∀ w : Warning, w ∈ t.host.warnings ↔
      ∃ r ∈ s.host.records, r.isSkip = true ∧ r.targetValid = false ∧ w = ⟨r.addr, r.opnd1.num, r.target⟩) ∧
    (s.RecordsAscending → t.host.warnings.Pairwise fun v w => v.addr.toNat < w.addr.toNat) ∧
    (t.host.result = .failed ↔ s.host.escalate = true ∧
      ∃ r ∈ s.host.records, r.isSkip = true ∧ r.targetValid = false) ∧
    (t.host.result = .failed ∨ t.host.result = .succeeded)

/-- R86, R153: the line of an unmatched word is `nop` under raw suppression and `raw` without, with an empty
operand column, and the literal word in the comment in both cases. The empty operand column is the spec's
reading of the grammar of R79 (log 14, DEDUCED). -/
def Obligations.RawLineShowsTheWord : Prop :=
  ∀ (s : State) (w : Word) (relative : Bool) (labels : List (Slot × String)), ∃ t, exec (.raw w) s = .next t ∧
    renderLine relative labels t.out = labelPrefix labels s.addr ++ "\t" ++
      (if s.suppressRaw = true then "nop" else "raw") ++ "\t" ++ "\t; " ++ ("0x" ++ hexDigits 8 s.word.toNat)

/-- R81, D22: the decimal text of a fraction is exact: the digits after the point are decimal digits, at most
`fbits` of them, they do not end in zero, and with the integer part they make up the magnitude. -/
def Obligations.FractionTextIsExact : Prop :=
  ∀ (num : Int) (fbits : Nat),
    let ds := fractionDigits (2 ^ fbits) fbits (num.natAbs % 2 ^ fbits)
    fractionText num fbits = (if num < 0 then "-" else "") ++ toString (num.natAbs / 2 ^ fbits) ++ "." ++
      String.join ((if ds = [] then [0] else ds).map toString) ∧
    ((num.natAbs / 2 ^ fbits : Nat) : Rat) + digitsValue ds = |(num : Rat)| / 2 ^ fbits ∧
    ds.length ≤ fbits ∧ (∀ d ∈ ds, d ≤ 9) ∧ ds.getLast? ≠ some 0

/-- R180 with R173 to R179 and R199: from the moment the host sets out to obtain a program, 131 steps render the
last slot: the buffer holds the selected window, there is one record for each of the 128 slots, which is the
block's record of the four bytes of that slot, the labels and warnings are those of the records, and there are
exactly 128 lines; one step more hands the lines over and ends the run. A run on a short image stops at once
with the fatal error and no line. The model's choice in it: the order of the slots and one `suppress_raw` for all
(logs 4, 5), the number of steps (log 5), the byte offset of the window (log 7), a warning as data (log 9), the
escalation policy, under which a run still has its lines (log 10), details of a line's text (log 14), and what
stays after the end of a run (log 17). -/
def Obligations.RunDisassemblesTheProgram : Prop :=
  ∀ s : State, s.host.phase = .obtain →
    (s.host.image.length < 512 * s.host.options.program.val + 512 →
      ∀ k, core.run (k + 1) s = .fault .truncatedInput) ∧
    (512 * s.host.options.program.val + 512 ≤ s.host.image.length →
      ∃ t u : State, core.run 131 s = .next t ∧ t.host.phase = .release ∧
        (∀ x, x < 512 → t.mem.read x = s.host.image.getD (512 * s.host.options.program.val + x) 0) ∧
        t.host.records = (List.range 128).map (fun a =>
          blockRecord (slotWord t.mem (BitVec.ofNat 7 a)) (BitVec.ofNat 7 a) s.host.options.suppressRaw) ∧
        t.host.labels = labelsFor s.host.options.relative t.host.records ∧
        t.host.lines = t.host.records.map (renderLine s.host.options.relative t.host.labels) ∧
        t.host.lines.length = 128 ∧
        t.host.warnings = diagnostics s.host.options.quiet t.host.records ∧
        t.host.result = runResult s.host.escalate t.host.records ∧
        core.run 132 s = .next u ∧ u.host.phase = .finished ∧ u.host.output = t.host.lines ∧
        u.host.warnings = t.host.warnings ∧ u.host.result = t.host.result)

/-- R180: after the end of a run the host presents nothing: a step changes nothing (log 5). -/
def Obligations.FinishedRunIsAtRest : Prop :=
  ∀ s : State, s.host.phase = .finished → step s = .next s
end

