-- ==== Sys2Proof/Laws/Bits.lean ====
section
/-! SUPPORT. Laws of the field operations of Decode.lean: taking a field from a word made of placed fields. -/

namespace Sys2Proof

theorem takeField_getLsbD (f : Field) (w : Nat) (word : Word) (j : Nat) :
    (takeField f w word).getLsbD j = (decide (j < w) && word.getLsbD (f.lo + j)) := by
  simp [takeField, BitVec.getLsbD_extractLsb']

theorem placeField_getLsbD (f : Field) {w : Nat} (v : BitVec w) (j : Nat) :
    (placeField f v).getLsbD j = (decide (j < 32) && decide (f.lo ≤ j) && v.getLsbD (j - f.lo)) := by
  simp only [placeField, BitVec.getLsbD_shiftLeft, BitVec.getLsbD_setWidth]
  by_cases hj : j < 32 <;> by_cases hl : f.lo ≤ j
  · simp [hj, hl, Nat.not_lt.mpr hl, show j - f.lo < 32 by omega]
  · simp [hj, hl, Nat.not_le.mp hl]
  · simp [hj]
  · simp [hj]

/-- A field that fits the container is read back where it was placed. -/
theorem takeField_placeField_same (f : Field) {w : Nat} (v : BitVec w) (h : f.lo + w ≤ 32) :
    takeField f w (placeField f v) = v := by
  apply BitVec.eq_of_getLsbD_eq
  intro j hj
  rw [takeField_getLsbD, placeField_getLsbD]
  have : f.lo + j < 32 := by omega
  simp only [hj, this, decide_true, Nat.le_add_right, Nat.add_sub_cancel_left, Bool.true_and]

/-- A field placed elsewhere contributes zeros. -/
theorem takeField_placeField_disjoint (f g : Field) (w : Nat) {v : Nat} (x : BitVec v)
    (h : f.lo + w ≤ g.lo ∨ g.lo + v ≤ f.lo) : takeField f w (placeField g x) = 0 := by
  apply BitVec.eq_of_getLsbD_eq
  intro j hj
  simp only [takeField_getLsbD, placeField_getLsbD, BitVec.ofNat_eq_ofNat, BitVec.getLsbD_zero]
  rcases h with h | h
  · have : ¬ g.lo ≤ f.lo + j := by omega
    simp [this]
  · have : x.getLsbD (f.lo + j - g.lo) = false := BitVec.getLsbD_of_ge _ _ (by omega)
    simp [this]

@[simp] theorem takeField_or (f : Field) (w : Nat) (x y : Word) :
    takeField f w (x ||| y) = takeField f w x ||| takeField f w y := by
  simp [takeField, BitVec.extractLsb'_or]

/-- The opcode field of a word made by the encoder is the opcode placed in it. -/
theorem takeField_opcode_placeOpcode (op : OpId) :
    takeField Table.opcode 5 (placeOpcode op) = Table.opcodeOf op :=
  takeField_placeField_same _ _ (by decide)

/-- A field that ends below bit 19 has no bit of the opcode. -/
theorem takeField_placeOpcode_below (f : Field) (w : Nat) (op : OpId) (h : f.lo + w ≤ 19) :
    takeField f w (placeOpcode op) = 0 :=
  takeField_placeField_disjoint _ _ _ _ (Or.inl h)

/-- An operand field placed below bit 19 does not reach the opcode. -/
theorem takeField_opcode_placeField (g : Field) {v : Nat} (x : BitVec v) (h : g.lo + v ≤ 19) :
    takeField Table.opcode 5 (placeField g x) = 0 :=
  takeField_placeField_disjoint _ _ _ _ (Or.inr h)

/-- The bytes of a word make the word again. -/
theorem wordOfBytes_bytesOfWord (word : Word) :
    wordOfBytes (word.extractLsb' 24 8) (word.extractLsb' 16 8) (word.extractLsb' 8 8) (word.extractLsb' 0 8) = word := by
  apply BitVec.eq_of_getLsbD_eq
  intro j hj
  simp only [wordOfBytes, Config.byteOrder, BitVec.getLsbD_append, BitVec.getLsbD_extractLsb']
  by_cases h1 : j < 8
  · simp [h1]
  · by_cases h2 : j < 16
    · simp [h1, show j - 8 < 8 by omega]
      congr 1; omega
    · by_cases h3 : j < 24
      · simp [h1, show ¬ j - 8 < 8 by omega, show j - 8 - 8 < 8 by omega]
        congr 1; omega
      · simp [h1, show ¬ j - 8 < 8 by omega, show ¬ j - 8 - 8 < 8 by omega, show j - 8 - 8 - 8 < 8 by omega]
        congr 1; omega

end Sys2Proof
end

