-- ==== Sys2Proof/Laws/Algorithm.lean ====
section
/-! SUPPORT. The parts of the decode algorithm against the operations the meanings use: a field read off the
instruction's number is the field taken from the word; the operand of a descriptor is the operand function of
its kind. -/

namespace Sys2Proof.Machine

theorem insn_div_mod (n lo w : Nat) (h : lo + w ≤ 24) : n % 2 ^ 24 / 2 ^ lo % 2 ^ w = n / 2 ^ lo % 2 ^ w := by
  have h24 : (2 : Nat) ^ 24 = 2 ^ lo * 2 ^ (24 - lo) := by rw [← pow_add]; congr 1; omega
  have hd : n % 2 ^ 24 / 2 ^ lo = n / 2 ^ lo % 2 ^ (24 - lo) := by
    rw [h24]
    exact Nat.mod_mul_right_div_self ..
  rw [hd, Nat.mod_mod_of_dvd]
  exact pow_dvd_pow 2 (by omega)

/-- `insn[hi:lo]` as a number is the field taken from the container. -/
theorem insn_field_eq_takeField (word : Word) (f : Field) (w : Nat) (h : f.lo + w ≤ 24) :
    (word.setWidth 24 : Insn).toNat / 2 ^ f.lo % 2 ^ w = (takeField f w word).toNat := by
  simp only [BitVec.toNat_setWidth, takeField, BitVec.extractLsb'_toNat, Nat.shiftRight_eq_div_pow]
  exact insn_div_mod _ _ _ h

theorem ofNat_toNat_eq_setWidth {w : Nat} (v : BitVec w) (n : Nat) : BitVec.ofNat n v.toNat = v.setWidth n := by
  apply BitVec.eq_of_toNat_eq
  simp

/-- `sext_W` of R77 is the two's complement reading of the field. -/
theorem sextInt_toNat {w : Nat} (hw : 0 < w) (v : BitVec w) : sextInt w v.toNat = v.toInt := by
  have hp : 2 ^ w = 2 * 2 ^ (w - 1) := by rw [← Nat.pow_succ']; congr 1; omega
  rw [BitVec.toInt_eq_toNat_cond, sextInt]
  by_cases h : v.toNat < 2 ^ (w - 1)
  · rw [if_pos h, if_pos (by omega)]
  · rw [if_neg h, if_neg (by omega)]
    simp

theorem ofInt_sextInt {w : Nat} (hw : 0 < w) (v : BitVec w) (n : Nat) :
    BitVec.ofInt n (sextInt w v.toNat) = v.signExtend n := by
  rw [sextInt_toNat hw, BitVec.signExtend]

section
variable (word : Word) (f : Field) (w : Nat)

theorem operandOf_uint (hw : f.width = w) (h : f.lo + w ≤ 24) :
    operandOf (Table.uint f) (word.setWidth 24) = .uint f (takeField f w word) := by
  subst hw
  simp only [operandOf, Table.uint, insn_field_eq_takeField word f _ h, ofNat_toNat_eq_setWidth, Operand.uint]
  simp

theorem operandOf_daddr (hw : f.width = w) (h : f.lo + w ≤ 24) :
    operandOf (Table.daddr f) (word.setWidth 24) = .daddr f (takeField f w word) := by
  subst hw
  simp only [operandOf, Table.daddr, insn_field_eq_takeField word f _ h, ofNat_toNat_eq_setWidth, Operand.daddr]
  simp

theorem operandOf_sint (hw : f.width = w) (h : f.lo + w ≤ 24) :
    operandOf (Table.sint f) (word.setWidth 24) = .sint f (takeField f w word) := by
  subst hw
  have hp : 0 < f.width := by simp [Field.width]
  simp only [operandOf, Table.sint, insn_field_eq_takeField word f _ h, ofNat_toNat_eq_setWidth, Operand.sint,
    ofInt_sextInt hp]
  simp

theorem operandOf_frac (fmt : FixedFormat) (hw : f.width = w) (h : f.lo + w ≤ 24) :
    operandOf (Table.frac f fmt) (word.setWidth 24) = .frac f fmt (takeField f w word) := by
  subst hw
  have hp : 0 < f.width := by simp [Field.width]
  simp only [operandOf, Table.frac, insn_field_eq_takeField word f _ h, ofNat_toNat_eq_setWidth, Operand.frac,
    ofInt_sextInt hp]
  simp

theorem operandOf_flags (t : NamesTable) (hw : f.width = w) (h : f.lo + w ≤ 24) :
    operandOf (Table.flags f t) (word.setWidth 24) = .flags f t (takeField f w word) := by
  subst hw
  simp only [operandOf, Table.flags, insn_field_eq_takeField word f _ h, ofNat_toNat_eq_setWidth, Operand.flags]
  simp

theorem operandOf_enum (t : NamesTable) (hw : f.width = w) (h : f.lo + w ≤ 24) :
    operandOf (Table.enum f t) (word.setWidth 24) = .enum f t (takeField f w word) := by
  subst hw
  simp only [operandOf, Table.enum, insn_field_eq_takeField word f _ h, ofNat_toNat_eq_setWidth, Operand.enum]
  simp

theorem operandOf_reg (hw : f.width = 6) (h : f.lo + 6 ≤ 24) :
    operandOf (Table.reg f) (word.setWidth 24) = .reg f (takeField f 6 word) := by
  simp only [operandOf, Table.reg, hw, insn_field_eq_takeField word f _ h, ofNat_toNat_eq_setWidth, Operand.reg]
  simp

end

/-- The opcode the algorithm looks up is the opcode field the decoder dispatches on. -/
theorem insn_opcode_eq_takeField (word : Word) :
    (word.setWidth 24 : Insn).extractLsb' 19 5 = takeField Table.opcode 5 word := by
  apply BitVec.eq_of_getLsbD_eq
  intro j hj
  simp only [takeField_getLsbD, BitVec.getLsbD_extractLsb', BitVec.getLsbD_setWidth, Table.opcode]
  have : 19 + j < 24 := by omega
  simp [hj, this]

/-- The target over the integers, put on the 9-bit bus, is the sum on the bus. -/
theorem ofInt_targetInt (addr : Slot) (word : Word) :
    BitVec.ofInt 9 (targetInt addr (word.setWidth 24)) = skipTarget addr (takeField Table.fpOffset 8 word) := by
  have hf := insn_field_eq_takeField word Table.fpOffset 8 (by decide)
  rw [targetInt, show (6 : Nat) = Table.fpOffset.lo from rfl, hf, sextInt_toNat (by decide)]
  generalize takeField Table.fpOffset 8 word = o
  have ha : (addr.setWidth 9).toInt = addr.toNat := by
    rw [BitVec.toInt_setWidth]
    have := addr.isLt
    apply Int.bmod_eq_of_le <;> omega
  have ho : (o.signExtend 9).toInt = o.toInt := BitVec.toInt_signExtend_of_le (by decide)
  apply BitVec.eq_of_toInt_eq
  simp only [skipTarget, BitVec.toInt_ofInt, BitVec.toInt_add, ha, ho]
  simp

end Sys2Proof.Machine
end

