-- ==== Sys2Proof/Laws/Memory.lean ====
section
/-! SUPPORT. The canonical form of the program buffer is kept by every operation that makes or changes one. -/

namespace Sys2Proof.Machine

theorem Memory.wfFrom_nil (lo : Nat) : Memory.wfFrom lo [] = true := rfl

theorem Memory.wfFrom_cons (lo a : Nat) (b : Byte) (m : Memory) :
    Memory.wfFrom lo ((a, b) :: m) = true ↔
      lo ≤ a ∧ a < 512 ∧ b ≠ Memory.blank ∧ Memory.wfFrom (a + 1) m = true := by
  simp only [Memory.wfFrom, Bool.and_eq_true, decide_eq_true_eq, bne_iff_ne, and_assoc]
  exact Iff.rfl

/-- A memory whose addresses are at least `hi` has them at least `lo`. -/
theorem Memory.wfFrom_mono {lo hi : Nat} {m : Memory} (h : lo ≤ hi) (w : Memory.wfFrom hi m = true) :
    Memory.wfFrom lo m = true := by
  cases m with
  | nil => rfl
  | cons c m =>
    obtain ⟨a, b⟩ := c
    rw [Memory.wfFrom_cons] at w ⊢
    exact ⟨h.trans w.1, w.2⟩

/-- Below the least address of a memory every byte is blank. -/
theorem Memory.read_below {lo : Nat} {m : Memory} (w : Memory.wfFrom lo m = true) {x : Nat} (h : x < lo) :
    m.read x = Memory.blank := by
  induction m generalizing lo with
  | nil => rfl
  | cons c m ih =>
    obtain ⟨a, b⟩ := c
    rw [Memory.wfFrom_cons] at w
    rw [Memory.read, if_neg (by omega)]
    exact ih w.2.2.2 (by omega)

theorem Memory.write_wfFrom {lo : Nat} {m : Memory} (w : Memory.wfFrom lo m = true) {x : Nat} (hlo : lo ≤ x)
    (hx : x < 512) (v : Byte) : Memory.wfFrom lo (m.write x v) = true := by
  induction m generalizing lo with
  | nil =>
    rw [Memory.write]
    split
    · rfl
    · next hv => exact (Memory.wfFrom_cons ..).mpr ⟨hlo, hx, hv, rfl⟩
  | cons c m ih =>
    obtain ⟨a, b⟩ := c
    have hw := (Memory.wfFrom_cons ..).mp w
    rw [Memory.write]
    split
    · next hlt =>
      split
      · exact w
      · next hv =>
        exact (Memory.wfFrom_cons ..).mpr
          ⟨hlo, hx, hv, (Memory.wfFrom_cons ..).mpr ⟨hlt, hw.2.1, hw.2.2.1, hw.2.2.2⟩⟩
    · split
      · split
        · exact Memory.wfFrom_mono (by omega) hw.2.2.2
        · next hv => exact (Memory.wfFrom_cons ..).mpr ⟨hw.1, hw.2.1, hv, hw.2.2.2⟩
      · exact (Memory.wfFrom_cons ..).mpr ⟨hw.1, hw.2.1, hw.2.2.1, ih hw.2.2.2 (by omega)⟩

/-- A byte written inside the buffer keeps the canonical form. -/
theorem Memory.write_wf {m : Memory} (w : m.wf = true) {x : Nat} (hx : x < 512) (v : Byte) :
    (m.write x v).wf = true :=
  Memory.write_wfFrom w (Nat.zero_le x) hx v

/-- Bytes written inside the buffer keep the canonical form. -/
theorem Memory.writeBytes_wf {m : Memory} (w : m.wf = true) (bytes : List Byte) {x : Nat}
    (hx : x + bytes.length ≤ 512) : (m.writeBytes x bytes).wf = true := by
  induction bytes generalizing m x with
  | nil => exact w
  | cons b bs ih =>
    rw [List.length_cons] at hx
    exact ih (Memory.write_wf w (by omega) b) (by omega)

/-- A word placed in a slot keeps the canonical form. -/
theorem placeWord_wf {m : Memory} (w : m.wf = true) (a : Slot) (word : Word) : (placeWord m a word).wf = true := by
  have ha : a.toNat < 128 := a.isLt
  have hl : (bytesOfWord word).length = 4 := rfl
  refine Memory.writeBytes_wf w _ ?_
  rw [hl, slotBase, Config.slotBytes]
  omega

theorem Memory.ofBytesFrom_wfFrom (bytes : List Byte) {lo base : Nat} (hlo : lo ≤ base)
    (hb : base + bytes.length ≤ 512) : Memory.wfFrom lo (Memory.ofBytesFrom base bytes) = true := by
  induction bytes generalizing lo base with
  | nil => rfl
  | cons b bs ih =>
    rw [List.length_cons] at hb
    rw [Memory.ofBytesFrom]
    split
    · exact ih (by omega) (by omega)
    · next hv => exact (Memory.wfFrom_cons ..).mpr ⟨hlo, by omega, hv, ih (le_refl _) (by omega)⟩

/-- A program of at most 512 bytes is in the canonical form. -/
theorem Memory.ofBytes_wf {bytes : List Byte} (h : bytes.length ≤ 512) : (Memory.ofBytes bytes).wf = true :=
  Memory.ofBytesFrom_wfFrom bytes (le_refl 0) (by omega)

/-- A memory whose addresses are at least `lo` lists at most the addresses from there to 511. -/
theorem Memory.length_of_wfFrom {lo : Nat} {m : Memory} (w : Memory.wfFrom lo m = true) :
    m.length ≤ 512 - lo := by
  induction m generalizing lo with
  | nil => simp
  | cons c m ih =>
    obtain ⟨a, b⟩ := c
    rw [Memory.wfFrom_cons] at w
    have := ih w.2.2.2
    rw [List.length_cons]
    omega

/-- The buffer after reset is in the canonical form. -/
theorem reset_mem_wf : State.reset.mem.wf = true := rfl

end Sys2Proof.Machine
end

