-- ==== Sys2Proof/Laws/Passes.lean ====
section
/-! SUPPORT. Laws of the host's list operations: keeping records in address order. -/

namespace Sys2Proof.Machine

/-- A record kept is the new one or one that was there. -/
theorem mem_insertRecord {r q : Record} {rs : List Record} (h : q ∈ insertRecord r rs) : q = r ∨ q ∈ rs := by
  induction rs with
  | nil => exact .inl (by simpa [insertRecord] using h)
  | cons x xs ih =>
    rw [insertRecord] at h
    split at h
    · simpa using h
    · split at h
      · rcases List.mem_cons.mp h with h | h
        · exact .inl h
        · exact .inr (List.mem_cons_of_mem _ h)
      · rcases List.mem_cons.mp h with h | h
        · exact .inr (h ▸ List.mem_cons_self ..)
        · rcases ih h with h | h
          · exact .inl h
          · exact .inr (List.mem_cons_of_mem _ h)

/-- Keeping a record keeps the address order. -/
theorem insertRecord_ascending {r : Record} {rs : List Record}
    (h : rs.Pairwise fun q r => q.addr.toNat < r.addr.toNat) :
    (insertRecord r rs).Pairwise fun q r => q.addr.toNat < r.addr.toNat := by
  induction rs with
  | nil => simp [insertRecord]
  | cons x xs ih =>
    obtain ⟨hx, hxs⟩ := List.pairwise_cons.mp h
    rw [insertRecord]
    split
    · next hlt =>
      refine List.pairwise_cons.mpr ⟨fun q hq => ?_, h⟩
      rcases List.mem_cons.mp hq with rfl | hq
      · exact hlt
      · exact hlt.trans (hx q hq)
    · split
      · next he => exact List.pairwise_cons.mpr ⟨fun q hq => he ▸ hx q hq, hxs⟩
      · next hlt hne =>
        refine List.pairwise_cons.mpr ⟨fun q hq => ?_, ih hxs⟩
        rcases mem_insertRecord hq with rfl | hq
        · have : q.addr.toNat ≠ x.addr.toNat := fun e => hne (BitVec.eq_of_toNat_eq e)
          omega
        · exact hx q hq

end Sys2Proof.Machine
end

