-- ==== Sys2Proof/Laws/PerInstr.lean ====
section
/-! SUPPORT. Statements made per instruction: the encoder puts the instruction's opcode number at bits 23:19
(30_encoding R61, R72), for every instruction that has one; a RAW word has an opcode of the RAW set (R73). -/

namespace Sys2Proof.Laws.EncodedOpcode

/-- The opcode field of the encoded word. -/
def Statement (i : Instr) : Prop :=
  i.wf = true →
    if i.op = .raw then 0x14 ≤ (takeField Table.opcode 5 (encode i)).toNat
    else takeField Table.opcode 5 (encode i) = Table.opcodeOf i.op

/-- Operand fields below bit 19 add nothing to the opcode. -/
theorem opcode_of_encode_two {w1 w2 : Nat} (op : OpId) (f1 f2 : Field) (x : BitVec w1) (y : BitVec w2)
    (h1 : f1.lo + w1 ≤ 19) (h2 : f2.lo + w2 ≤ 19) :
    takeField Table.opcode 5 (placeOpcode op ||| placeField f1 x ||| placeField f2 y) = Table.opcodeOf op := by
  rw [takeField_or, takeField_or, takeField_opcode_placeOpcode, takeField_opcode_placeField _ _ h1,
    takeField_opcode_placeField _ _ h2]
  simp

theorem opcode_of_encode_one {w1 : Nat} (op : OpId) (f1 : Field) (x : BitVec w1) (h1 : f1.lo + w1 ≤ 19) :
    takeField Table.opcode 5 (placeOpcode op ||| placeField f1 x) = Table.opcodeOf op := by
  rw [takeField_or, takeField_opcode_placeOpcode, takeField_opcode_placeField _ _ h1]
  simp

theorem opcode_of_encode_four {w1 w2 w3 w4 : Nat} (op : OpId) (f1 f2 f3 f4 : Field) (x : BitVec w1) (y : BitVec w2)
    (z : BitVec w3) (u : BitVec w4) (h1 : f1.lo + w1 ≤ 19) (h2 : f2.lo + w2 ≤ 19) (h3 : f3.lo + w3 ≤ 19)
    (h4 : f4.lo + w4 ≤ 19) :
    takeField Table.opcode 5 (placeOpcode op ||| placeField f1 x ||| placeField f2 y ||| placeField f3 z
      ||| placeField f4 u) = Table.opcodeOf op := by
  rw [takeField_or, takeField_opcode_placeField _ _ h4, takeField_or, takeField_opcode_placeField _ _ h3,
    opcode_of_encode_two op f1 f2 x y h1 h2]
  simp

theorem rda (a : BitVec 9) (k : BitVec 10) : Statement (.rda a k) :=
  fun _ => opcode_of_encode_two .rda _ _ a k (by decide) (by decide)
theorem rmpa (k : BitVec 10) : Statement (.rmpa k) := fun _ => opcode_of_encode_one .rmpa _ k (by decide)
theorem wra (a : BitVec 9) (k : BitVec 10) : Statement (.wra a k) :=
  fun _ => opcode_of_encode_two .wra _ _ a k (by decide) (by decide)
theorem wrap (a : BitVec 9) (k : BitVec 10) : Statement (.wrap a k) :=
  fun _ => opcode_of_encode_two .wrap _ _ a k (by decide) (by decide)
theorem rdax (r : BitVec 6) (k : BitVec 13) : Statement (.rdax r k) :=
  fun _ => opcode_of_encode_two .rdax _ _ r k (by decide) (by decide)
theorem rdfx (r : BitVec 6) (k : BitVec 13) : Statement (.rdfx r k) :=
  fun _ => opcode_of_encode_two .rdfx _ _ r k (by decide) (by decide)
theorem wrax (r : BitVec 6) (k : BitVec 13) : Statement (.wrax r k) :=
  fun _ => opcode_of_encode_two .wrax _ _ r k (by decide) (by decide)
theorem wrhx (r : BitVec 6) (k : BitVec 13) : Statement (.wrhx r k) :=
  fun _ => opcode_of_encode_two .wrhx _ _ r k (by decide) (by decide)
theorem wrlx (r : BitVec 6) (k : BitVec 13) : Statement (.wrlx r k) :=
  fun _ => opcode_of_encode_two .wrlx _ _ r k (by decide) (by decide)
theorem maxx (r : BitVec 6) (k : BitVec 13) : Statement (.maxx r k) :=
  fun _ => opcode_of_encode_two .maxx _ _ r k (by decide) (by decide)
theorem mulx (r : BitVec 6) : Statement (.mulx r) := fun _ => opcode_of_encode_one .mulx _ r (by decide)
theorem log (k : BitVec 13) (d : BitVec 6) : Statement (.log k d) :=
  fun _ => opcode_of_encode_two .log _ _ k d (by decide) (by decide)
theorem exp (k : BitVec 13) (d : BitVec 6) : Statement (.exp k d) :=
  fun _ => opcode_of_encode_two .exp _ _ k d (by decide) (by decide)
theorem sof (k : BitVec 13) (d : BitVec 6) : Statement (.sof k d) :=
  fun _ => opcode_of_encode_two .sof _ _ k d (by decide) (by decide)
theorem and (mask : BitVec 19) : Statement (.and mask) := fun _ => opcode_of_encode_one .and _ mask (by decide)
theorem or (mask : BitVec 19) : Statement (.or mask) := fun _ => opcode_of_encode_one .or _ mask (by decide)
theorem xor (mask : BitVec 19) : Statement (.xor mask) := fun _ => opcode_of_encode_one .xor _ mask (by decide)
theorem skp (flags : BitVec 5) (offset : BitVec 8) : Statement (.skp flags offset) :=
  fun _ => opcode_of_encode_two .skp _ _ flags offset (by decide) (by decide)
theorem wlds (n : BitVec 1) (f : BitVec 9) (a : BitVec 8) : Statement (.wlds n f a) :=
  fun _ => opcode_of_encode_four .wlds _ _ _ _ 0#1 n f a (by decide) (by decide) (by decide) (by decide)
theorem wldr (n : BitVec 1) (f : BitVec 15) (a : BitVec 2) : Statement (.wldr n f a) :=
  fun _ => opcode_of_encode_four .wldr _ _ _ _ 1#1 n f a (by decide) (by decide) (by decide) (by decide)
theorem jam (n : BitVec 1) : Statement (.jam n) := fun _ => opcode_of_encode_one .jam _ n (by decide)
theorem choRda (n : BitVec 2) (flags : BitVec 6) (daddr : BitVec 9) : Statement (.choRda n flags daddr) :=
  fun _ => opcode_of_encode_four .choRda _ _ _ _ 0b00#2 n flags daddr (by decide) (by decide) (by decide) (by decide)
theorem choSof (n : BitVec 2) (flags : BitVec 6) (d : BitVec 9) : Statement (.choSof n flags d) :=
  fun _ => opcode_of_encode_four .choSof _ _ _ _ 0b10#2 n flags d (by decide) (by decide) (by decide) (by decide)
theorem choRdal (n : BitVec 2) : Statement (.choRdal n) :=
  fun _ => opcode_of_encode_two .choRdal _ _ 0b11#2 n (by decide) (by decide)

theorem raw (word : Word) : Statement (.raw word) := by
  intro h
  have h : unmatched word = true := h
  show 0x14 ≤ (takeField Table.opcode 5 word).toNat
  simp only [unmatched, Bool.or_eq_true, decide_eq_true_eq, beq_iff_eq] at h
  rcases h with h | h
  · exact Nat.le_of_succ_le h
  · have hm : (word.extractLsb' 17 7).extractLsb' 2 5 = takeField Table.opcode 5 word := by
      apply BitVec.eq_of_getLsbD_eq
      intro j hj
      have h2 : 2 + j < 7 := by omega
      simp only [takeField_getLsbD, BitVec.getLsbD_extractLsb', Table.opcode, hj, h2, decide_true, Bool.true_and]
      congr 1
      omega
    rw [← hm, h]
    decide

end Sys2Proof.Laws.EncodedOpcode
end

