-- ==== Sys2Proof/Laws/State.lean ====
section
/-! SUPPORT. One lemma per field per update of State. -/

namespace Sys2Proof.Machine

variable (s : State) (op : OpId) (opnds : List Operand) (offset : BitVec 8) (p : Presentation)
  (rest : List Presentation) (w : Word)

/-! ### Driving the record -/

@[simp] theorem drive_word : (s.drive op opnds).word = s.word := rfl
@[simp] theorem drive_addr : (s.drive op opnds).addr = s.addr := rfl
@[simp] theorem drive_suppressRaw : (s.drive op opnds).suppressRaw = s.suppressRaw := rfl
@[simp] theorem drive_out :
    (s.drive op opnds).out = mkRecord s.word s.addr s.suppressRaw op opnds none := rfl
@[simp] theorem drive_mem : (s.drive op opnds).mem = s.mem := rfl
@[simp] theorem drive_host : (s.drive op opnds).host = s.host := rfl

@[simp] theorem driveSkip_word : (s.driveSkip op opnds offset).word = s.word := rfl
@[simp] theorem driveSkip_addr : (s.driveSkip op opnds offset).addr = s.addr := rfl
@[simp] theorem driveSkip_suppressRaw : (s.driveSkip op opnds offset).suppressRaw = s.suppressRaw := rfl
@[simp] theorem driveSkip_out :
    (s.driveSkip op opnds offset).out = mkRecord s.word s.addr s.suppressRaw op opnds (some offset) := rfl
@[simp] theorem driveSkip_mem : (s.driveSkip op opnds offset).mem = s.mem := rfl
@[simp] theorem driveSkip_host : (s.driveSkip op opnds offset).host = s.host := rfl

/-! ### Presenting and keeping -/

@[simp] theorem present_word : (s.present p).word = slotWord s.mem p.addr := rfl
@[simp] theorem present_addr : (s.present p).addr = p.addr := rfl
@[simp] theorem present_suppressRaw : (s.present p).suppressRaw = p.suppressRaw := rfl
@[simp] theorem present_out : (s.present p).out = s.out := rfl
@[simp] theorem present_mem : (s.present p).mem = s.mem := rfl
@[simp] theorem present_host : (s.present p).host = s.host := rfl

@[simp] theorem keepRecord_word : (s.keepRecord rest).word = s.word := rfl
@[simp] theorem keepRecord_addr : (s.keepRecord rest).addr = s.addr := rfl
@[simp] theorem keepRecord_suppressRaw : (s.keepRecord rest).suppressRaw = s.suppressRaw := rfl
@[simp] theorem keepRecord_out : (s.keepRecord rest).out = s.out := rfl
@[simp] theorem keepRecord_mem : (s.keepRecord rest).mem = s.mem := rfl
@[simp] theorem keepRecord_options : (s.keepRecord rest).host.options = s.host.options := rfl
@[simp] theorem keepRecord_escalate : (s.keepRecord rest).host.escalate = s.host.escalate := rfl
@[simp] theorem keepRecord_image : (s.keepRecord rest).host.image = s.host.image := rfl
@[simp] theorem keepRecord_phase : (s.keepRecord rest).host.phase = s.host.phase := rfl
@[simp] theorem keepRecord_pending : (s.keepRecord rest).host.pending = rest := rfl
@[simp] theorem keepRecord_records :
    (s.keepRecord rest).host.records = insertRecord s.out s.host.records := rfl
@[simp] theorem keepRecord_labels : (s.keepRecord rest).host.labels = s.host.labels := rfl
@[simp] theorem keepRecord_lines : (s.keepRecord rest).host.lines = s.host.lines := rfl
@[simp] theorem keepRecord_output : (s.keepRecord rest).host.output = s.host.output := rfl
@[simp] theorem keepRecord_warnings : (s.keepRecord rest).host.warnings = s.host.warnings := rfl
@[simp] theorem keepRecord_result : (s.keepRecord rest).host.result = s.host.result := rfl

/-! ### The start of a run -/

@[simp] theorem startRun_word : (startRun s).word = s.word := rfl
@[simp] theorem startRun_addr : (startRun s).addr = s.addr := rfl
@[simp] theorem startRun_suppressRaw : (startRun s).suppressRaw = s.suppressRaw := rfl
@[simp] theorem startRun_out : (startRun s).out = s.out := rfl
@[simp] theorem startRun_mem :
    (startRun s).mem = Memory.ofBytes (programWindow s.host.image s.host.options.program) := rfl
@[simp] theorem startRun_options : (startRun s).host.options = s.host.options := rfl
@[simp] theorem startRun_escalate : (startRun s).host.escalate = s.host.escalate := rfl
@[simp] theorem startRun_image : (startRun s).host.image = s.host.image := rfl
@[simp] theorem startRun_phase : (startRun s).host.phase = .decode := rfl
@[simp] theorem startRun_pending : (startRun s).host.pending = allSlots s.host.options.suppressRaw := rfl
@[simp] theorem startRun_records : (startRun s).host.records = [] := rfl
@[simp] theorem startRun_labels : (startRun s).host.labels = [] := rfl
@[simp] theorem startRun_lines : (startRun s).host.lines = [] := rfl
@[simp] theorem startRun_output : (startRun s).host.output = [] := rfl
@[simp] theorem startRun_warnings : (startRun s).host.warnings = [] := rfl
@[simp] theorem startRun_result : (startRun s).host.result = .running := rfl

/-! ### Pass 2 -/

@[simp] theorem labelPass_word : (labelPass s).word = s.word := rfl
@[simp] theorem labelPass_addr : (labelPass s).addr = s.addr := rfl
@[simp] theorem labelPass_suppressRaw : (labelPass s).suppressRaw = s.suppressRaw := rfl
@[simp] theorem labelPass_out : (labelPass s).out = s.out := rfl
@[simp] theorem labelPass_mem : (labelPass s).mem = s.mem := rfl
@[simp] theorem labelPass_options : (labelPass s).host.options = s.host.options := rfl
@[simp] theorem labelPass_escalate : (labelPass s).host.escalate = s.host.escalate := rfl
@[simp] theorem labelPass_image : (labelPass s).host.image = s.host.image := rfl
@[simp] theorem labelPass_phase : (labelPass s).host.phase = .render := rfl
@[simp] theorem labelPass_pending : (labelPass s).host.pending = s.host.pending := rfl
@[simp] theorem labelPass_records : (labelPass s).host.records = s.host.records := rfl
@[simp] theorem labelPass_labels :
    (labelPass s).host.labels = labelsFor s.host.options.relative s.host.records := rfl
@[simp] theorem labelPass_lines : (labelPass s).host.lines = s.host.lines := rfl
@[simp] theorem labelPass_output : (labelPass s).host.output = s.host.output := rfl
@[simp] theorem labelPass_warnings : (labelPass s).host.warnings = s.host.warnings := rfl
@[simp] theorem labelPass_result : (labelPass s).host.result = s.host.result := rfl

/-! ### Pass 3 -/

@[simp] theorem renderPass_word : (renderPass s).word = s.word := rfl
@[simp] theorem renderPass_addr : (renderPass s).addr = s.addr := rfl
@[simp] theorem renderPass_suppressRaw : (renderPass s).suppressRaw = s.suppressRaw := rfl
@[simp] theorem renderPass_out : (renderPass s).out = s.out := rfl
@[simp] theorem renderPass_mem : (renderPass s).mem = s.mem := rfl
@[simp] theorem renderPass_options : (renderPass s).host.options = s.host.options := rfl
@[simp] theorem renderPass_escalate : (renderPass s).host.escalate = s.host.escalate := rfl
@[simp] theorem renderPass_image : (renderPass s).host.image = s.host.image := rfl
@[simp] theorem renderPass_phase : (renderPass s).host.phase = .release := rfl
@[simp] theorem renderPass_pending : (renderPass s).host.pending = s.host.pending := rfl
@[simp] theorem renderPass_records : (renderPass s).host.records = s.host.records := rfl
@[simp] theorem renderPass_labels : (renderPass s).host.labels = s.host.labels := rfl
@[simp] theorem renderPass_lines : (renderPass s).host.lines =
    s.host.records.map (renderLine s.host.options.relative s.host.labels) := rfl
@[simp] theorem renderPass_output : (renderPass s).host.output = s.host.output := rfl
@[simp] theorem renderPass_warnings :
    (renderPass s).host.warnings = diagnostics s.host.options.quiet s.host.records := rfl
@[simp] theorem renderPass_result :
    (renderPass s).host.result = runResult s.host.escalate s.host.records := rfl

/-! ### The end of a run -/

@[simp] theorem releaseRun_word : (releaseRun s).word = s.word := rfl
@[simp] theorem releaseRun_addr : (releaseRun s).addr = s.addr := rfl
@[simp] theorem releaseRun_suppressRaw : (releaseRun s).suppressRaw = s.suppressRaw := rfl
@[simp] theorem releaseRun_out : (releaseRun s).out = s.out := rfl
@[simp] theorem releaseRun_mem : (releaseRun s).mem = [] := rfl
@[simp] theorem releaseRun_options : (releaseRun s).host.options = s.host.options := rfl
@[simp] theorem releaseRun_escalate : (releaseRun s).host.escalate = s.host.escalate := rfl
@[simp] theorem releaseRun_image : (releaseRun s).host.image = s.host.image := rfl
@[simp] theorem releaseRun_phase : (releaseRun s).host.phase = .finished := rfl
@[simp] theorem releaseRun_pending : (releaseRun s).host.pending = s.host.pending := rfl
@[simp] theorem releaseRun_records : (releaseRun s).host.records = [] := rfl
@[simp] theorem releaseRun_labels : (releaseRun s).host.labels = [] := rfl
@[simp] theorem releaseRun_lines : (releaseRun s).host.lines = [] := rfl
@[simp] theorem releaseRun_output : (releaseRun s).host.output = s.host.lines := rfl
@[simp] theorem releaseRun_warnings : (releaseRun s).host.warnings = s.host.warnings := rfl
@[simp] theorem releaseRun_result : (releaseRun s).host.result = s.host.result := rfl

/-! ### Placing an instruction -/

@[simp] theorem placeNext_word : (placeNext s w).word = s.word := rfl
@[simp] theorem placeNext_addr : (placeNext s w).addr = s.addr := rfl
@[simp] theorem placeNext_suppressRaw : (placeNext s w).suppressRaw = s.suppressRaw := rfl
@[simp] theorem placeNext_out : (placeNext s w).out = s.out := rfl
@[simp] theorem placeNext_mem :
    (placeNext s w).mem = placeWord s.mem (nextPresentation s).addr w := rfl
@[simp] theorem placeNext_phase : (placeNext s w).host.phase = .decode := rfl
@[simp] theorem placeNext_pending : (placeNext s w).host.pending = pendingFrom s := rfl
@[simp] theorem placeNext_options : (placeNext s w).host.options = s.host.options := rfl
@[simp] theorem placeNext_escalate : (placeNext s w).host.escalate = s.host.escalate := rfl
@[simp] theorem placeNext_image : (placeNext s w).host.image = s.host.image := rfl
@[simp] theorem placeNext_records : (placeNext s w).host.records = s.host.records := rfl
@[simp] theorem placeNext_labels : (placeNext s w).host.labels = s.host.labels := rfl
@[simp] theorem placeNext_lines : (placeNext s w).host.lines = s.host.lines := rfl
@[simp] theorem placeNext_output : (placeNext s w).host.output = s.host.output := rfl
@[simp] theorem placeNext_warnings : (placeNext s w).host.warnings = s.host.warnings := rfl
@[simp] theorem placeNext_result : (placeNext s w).host.result = s.host.result := rfl

/-- What is pending after an instruction is placed begins with the presentation of its slot. -/
theorem pendingFrom_eq_cons : ∃ rest, pendingFrom s = nextPresentation s :: rest := by
  unfold pendingFrom nextPresentation
  cases hp : s.host.phase <;> cases hq : s.host.pending <;> simp

end Sys2Proof.Machine
end

