-- ==== Sys2Proof/Laws/Step.lean ====
section
/-! SUPPORT. What each kind of host move can do: one lemma for each phase, and what a presentation answers. -/

namespace Sys2Proof.Machine

/-- Every meaning drives the record and nothing else, and answers a next state. -/
theorem exec_drives (i : Instr) (s : State) : ∃ op opnds offset,
    exec i s = .next { s with out := mkRecord s.word s.addr s.suppressRaw op opnds offset } := by
  cases i <;> exact ⟨_, _, _, rfl⟩

theorem step_obtain {s : State} (h : s.host.phase = .obtain) : step s = obtainProgram s := by
  simp [step, hostMove, h]

theorem step_present {s : State} {p : Presentation} {rest : List Presentation} (h : s.host.phase = .decode)
    (hp : s.host.pending = p :: rest) : step s = decodeSlot s p rest := by
  simp [step, hostMove, h, hp]

theorem step_label {s : State} (h : s.host.phase = .decode) (hp : s.host.pending = []) :
    step s = .next (labelPass s) := by
  simp [step, hostMove, h, hp]

theorem step_render {s : State} (h : s.host.phase = .render) : step s = .next (renderPass s) := by
  simp [step, hostMove, h]

theorem step_release {s : State} (h : s.host.phase = .release) : step s = .next (releaseRun s) := by
  simp [step, hostMove, h]

theorem step_finished {s : State} (h : s.host.phase = .finished) : step s = .next s := by
  simp [step, hostMove, h]

/-- A presentation runs the decoded instruction on the ports it drives, and keeps the record. -/
theorem decodeSlot_of_exec {s t : State} {p : Presentation} {rest : List Presentation}
    (h : exec (decode (slotWord s.mem p.addr)) (s.present p) = .next t) :
    decodeSlot s p rest = .next (t.keepRecord rest) := by
  simp [decodeSlot, h]

/-- The moves that go on, by the phase they start from. -/
theorem step_next_cases {s t : State} (h : step s = .next t) :
    (s.host.phase = .obtain ∧ truncated s.host.image s.host.options.program = false ∧ t = startRun s) ∨
    (s.host.phase = .decode ∧ ∃ p rest, s.host.pending = p :: rest ∧ decodeSlot s p rest = .next t) ∨
    (s.host.phase = .decode ∧ s.host.pending = [] ∧ t = labelPass s) ∨
    (s.host.phase = .render ∧ t = renderPass s) ∨
    (s.host.phase = .release ∧ t = releaseRun s) ∨
    (s.host.phase = .finished ∧ t = s) := by
  simp only [step, hostMove] at h
  split at h
  · next hp =>
    unfold obtainProgram at h
    split at h
    · cases h
    · next ht => cases h; exact .inl ⟨hp, by simpa using ht, rfl⟩
  · next hp =>
    split at h
    · next p rest hq => exact .inr (.inl ⟨hp, p, rest, hq, h⟩)
    · next hq => cases h; exact .inr (.inr (.inl ⟨hp, hq, rfl⟩))
  · next hp => cases h; exact .inr (.inr (.inr (.inl ⟨hp, rfl⟩)))
  · next hp => cases h; exact .inr (.inr (.inr (.inr (.inl ⟨hp, rfl⟩))))
  · next hp => cases h; exact .inr (.inr (.inr (.inr (.inr ⟨hp, rfl⟩))))

end Sys2Proof.Machine
end

