-- ==== Sys2Proof/Tests/Slice0.lean ====
section
/-! SUPPORT. Tests against the spec's own encodings and vectors (30_encoding R66 to R72; 95_test_vectors), the
well-formedness smoke test, and a witness for the hypotheses of each statement. -/

namespace Sys2Proof.Tests

open Sys2Proof Sys2Proof.Machine

/-! ### Helpers -/

/-- A machine with given input ports. -/
def atPorts (word : Word) (addr : Slot) (suppressRaw : Bool) : State :=
  { State.reset with word := word, addr := addr, suppressRaw := suppressRaw }

/-- The record on the outputs after the word at the ports is decoded and run. -/
def outOf (word : Word) (addr : Slot) (suppressRaw : Bool) : Record :=
  match exec (decode word) (atPorts word addr suppressRaw) with
  | .next t => t.out
  | .fault _ | .refused _ => Record.reset

/-- Fields and numbers of the operands of a record. -/
def operandNumbers (r : Record) : List (Nat × Int) :=
  (r.operands r.nopnd).map fun o => (o.field.toNat, o.num.toInt)

/-- The line of a record without a label of its own. -/
def lineOf (word : Word) (addr : Slot) (suppressRaw : Bool) (labels : List (Slot × String)) : String :=
  renderLine false labels (outOf word addr suppressRaw)

/-- A machine in pass 1 with slots still to present. -/
def presenting (pending : List Presentation) : State :=
  { State.reset with host := { State.reset.host with phase := .decode, pending := pending } }

/-- A host about to make a move. -/
def atPhase (phase : Phase) : State := { State.reset with host := { State.reset.host with phase := phase } }

/-! ### Well-formedness smoke -/

theorem test_wf_refuses_raw_of_an_rda_word : (Instr.raw 0x00000000).wf = false := by decide
theorem test_wf_refuses_raw_of_a_cho_word : (Instr.raw 0x00A40000).wf = false := by decide
theorem test_wf_refuses_raw_below_the_raw_set : (Instr.raw 0xFF9FFFFF).wf = false := by decide
theorem test_wf_accepts_raw_of_the_cho_gap : (Instr.raw 0x00A21234).wf = true := by decide
theorem test_wf_accepts_raw_of_opcode_15 : (Instr.raw 0x00A80000).wf = true := by decide

/-! ### Configuration (R6): widths of the table's fields are the parameters -/

theorem test_field_widths :
    [Table.opcode, Table.fdDaddr, Table.fdK, Table.frReg, Table.frK, Table.fsK, Table.fsD, Table.flMask,
      Table.fpFlags, Table.fpOffset, Table.choLow].map Field.width =
    [Config.opcW, Config.daddrW, Config.kdW, Config.regW, Config.kmW, Config.kmW, Config.sofdW, Config.maskW,
      Config.skpfW, Config.skpoW, Config.chodW] := by decide

theorem test_opcode_and_operands_fill_the_word :
    [OpId.rda, .wra, .rdax, .log, .and, .wlds].map (fun op =>
      ((Table.descriptors op).map fun d => d.field.width).sum) = [19, 19, 19, 19, 19, 18] := by decide

/-! ### Decode: a word written out from each encoding -/

theorem test_decode_rda : decode 0b11111111_00000_000000001_1000000000#32 = .rda 1 0b1000000000#10 := by decide
theorem test_decode_rmpa : decode 0b00000000_00001_101010101_0111111111#32 = .rmpa 0b0111111111#10 := by decide
theorem test_decode_wra : decode 0b00000000_00010_100000000_0011000000#32 = .wra 256 0b0011000000#10 := by decide
theorem test_decode_wrap : decode 0b00000000_00011_111111111_1101100110#32 = .wrap 511 0b1101100110#10 := by decide
theorem test_decode_rdax : decode 0b00000000_00100_010100_0100000000000#32 = .rdax 0x14 0x0800 := by decide
theorem test_decode_rdfx : decode 0b00000000_00101_100000_0010000000000#32 = .rdfx 0x20 0x0400 := by decide
theorem test_decode_wrax : decode 0b00000000_00110_111111_0111111111111#32 = .wrax 0x3F 0x0FFF := by decide
theorem test_decode_wrhx : decode 0b00000000_00111_100001_1110000000000#32 = .wrhx 0x21 0x1C00 := by decide
theorem test_decode_wrlx : decode 0b00000000_01000_111111_0000000000011#32 = .wrlx 0x3F 3 := by decide
theorem test_decode_maxx : decode 0b00000000_01001_000000_0000000000001#32 = .maxx 0 1 := by decide
theorem test_decode_mulx : decode 0b00000000_01010_010000_1111111111111#32 = .mulx 0x10 := by decide
theorem test_decode_log : decode 0b00000000_01011_0100000000000_111111#32 = .log 0x0800 0x3F := by decide
theorem test_decode_exp : decode 0b00000000_01100_0100000000000_100000#32 = .exp 0x0800 0x20 := by decide
theorem test_decode_sof : decode 0b00000000_01101_1100000000000_010000#32 = .sof 0x1800 0x10 := by decide
theorem test_decode_and : decode 0b00000000_01110_1000000000000000001#32 = .and 0x40001 := by decide
theorem test_decode_or : decode 0b00000000_01111_0000000000000000001#32 = .or 1 := by decide
theorem test_decode_xor : decode 0b00000000_10000_1010101010101010101#32 = .xor 0x55555 := by decide
theorem test_decode_skp : decode 0b10101011_10001_10000_00000010_111111#32 = .skp 0x10 2 := by decide
theorem test_decode_wlds : decode 0b00000000_10010_0_1_000110010_01100100#32 = .wlds 1 50 100 := by decide
theorem test_decode_wldr : decode 0b00000000_10010_1_0_000001111101000_01#32 = .wldr 0 1000 1 := by decide
theorem test_decode_jam : decode 0b00000000_10011_1_000000000000000111#32 = .jam 1 := by decide
theorem test_decode_choRda : decode 0b00000000_10100_00_01_000110_100101100#32 = .choRda 1 0x06 300 := by decide
theorem test_decode_choSof : decode 0b00000000_10100_10_10_100010_100000000#32 = .choSof 2 0x22 0x100 := by decide
theorem test_decode_choRdal : decode 0b00000000_10100_11_11_111111111111111#32 = .choRdal 3 := by decide
theorem test_decode_raw_gap : decode 0b00000000_10100_01_00001001000110100#32 = .raw 0x00A21234 := by decide
theorem test_decode_raw_high : decode 0b00000000_10110_0010010001101000101#32 = .raw 0x00B12345 := by decide

/-- R12's own example (95 section 2.8): `0x6E0010`. -/
theorem test_encode_sof : encode (.sof 0x1800 0x10) = 0x006E0010 := by decide
theorem test_encode_mulx_writes_zeros : encode (decode 0x00521FFF) = 0x00520000 := by decide

/-- Bytes in buffer order, first byte ignored but kept (95 P3, slot 124). -/
theorem test_decode_bytes : decodeBytes [0xAB, 0x8C, 0x00, 0xBF, 0x00] = .ok (.skp 0x10 2, [0x00]) := by decide
theorem test_partial_slot_is_rejected : decodeBytes [0x00, 0x8C, 0x00] = .error .partialSlot := by decide
theorem test_table_word_24_bits : decodeTableWord 24 0x8C0080 = some (.skp 0x10 2) := by decide
theorem test_table_word_32_bits : decodeTableWord 32 0x00A60000 = some (.choRdal 0) := by decide

/-! ### Records: the vectors of 95_test_vectors -/

/-- A1 to A9, B1 to B13, C1 to C12, K1 to K12, L1 to L16, X1 to X8: the meanings against the algorithm of R62. -/
theorem test_vectors_follow_the_algorithm :
    ([0x00019080#32, 0x0007FDFF, 0x00000200, 0xFF000000, 0x00080100, 0x000FFFFF, 0x001400C0, 0x001FFF66,
      0x00228800, 0x00227FFF, 0x002C0400, 0x0032C000, 0x0037EFFF, 0x003C3C00, 0x0047E003, 0x00480001, 0x00521FFF,
      0x00510000, 0x005A003F, 0x005C0020, 0x00620000, 0x006E0010, 0x006FFFDF, 0x0077FFFF, 0x00780001, 0x00855555,
      0xAB8C00BF, 0x0088BFC0, 0x00887F80, 0x008A2000, 0x00891FC0, 0x008FDFC0, 0x0093FFFF, 0x00950003, 0x0097FFFD,
      0x009FFFFF, 0x00A00D2C, 0x00A1FFFF, 0x00A54500, 0x00A482FF, 0x00A68000, 0x00A7FFFF, 0x00A80000, 0x00A21234,
      0x00C00000, 0xFFFFFFFF].all fun w =>
      outOf w 10 false == blockRecord w 10 false && outOf w 127 true == blockRecord w 127 true) = true := by decide +kernel

theorem test_rda_A3 : operandNumbers (outOf 0x00000200 7 false) = [(0, 0), (0x200, -512)] := by decide
theorem test_rmpa_A7 : operandNumbers (outOf 0x000FFFFF 3 false) = [(0x3FF, -1)] := by decide
theorem test_wra_A8 : operandNumbers (outOf 0x001400C0 1 false) = [(256, 256), (0x0C0, 192)] := by decide
theorem test_wrap_A9 : operandNumbers (outOf 0x001FFF66 2 false) = [(511, 511), (0x366, -154)] := by decide
theorem test_rdax_B2_unnamed : (outOf 0x00227FFF 0 false).opnd0.named = false := by decide
theorem test_rdfx_B3 : operandNumbers (outOf 0x002C0400 0 false) = [(0x20, 32), (0x400, 1024)] := by decide
theorem test_wrax_B6 : operandNumbers (outOf 0x0032F000 0 false) = [(0x17, 23), (0x1000, -4096)] := by decide
theorem test_wrhx_B7 : operandNumbers (outOf 0x003C3C00 0 false) = [(0x21, 33), (0x1C00, -1024)] := by decide
theorem test_wrlx_B8 : operandNumbers (outOf 0x0047E003 0 false) = [(0x3F, 63), (3, 3)] := by decide
theorem test_maxx_B10_is_not_absa : (outOf 0x00480000 0 false).op = .maxx := by decide
theorem test_mulx_B13 : operandNumbers (outOf 0x00510000 0 false) = [(8, 8)] := by decide
theorem test_log_C2 : operandNumbers (outOf 0x005C0020 0 false) = [(0x1000, -4096), (0x20, -32)] := by decide
theorem test_exp_and_log_scales_differ :
    ((outOf 0x0062003F 0 false).opnd1.fbits, (outOf 0x005A003F 0 false).opnd1.fbits) = (5, 1) := by decide
theorem test_sof_C7 : operandNumbers (outOf 0x006FFFDF 0 false) = [(0x1FFF, -1), (0x1F, 31)] := by decide
theorem test_and_C8 : operandNumbers (outOf 0x0077FFFF 0 false) = [(524287, 524287)] := by decide
theorem test_or_C10 : operandNumbers (outOf 0x00780001 0 false) = [(1, 1)] := by decide
theorem test_xor_C11 : operandNumbers (outOf 0x00855555 0 false) = [(349525, 349525)] := by decide
theorem test_skp_K9_K10 : [(outOf 0x008A2000 0 false).target, (outOf 0x00891FC0 127 false).target] =
    [0b110000001#9, 0b011111111#9] := by decide
theorem test_skp_K3_K4_valid : [(outOf 0x00880000 126 false).targetValid, (outOf 0x00880000 127 false).targetValid] =
    [true, false] := by decide
theorem test_wlds_L3 : operandNumbers (outOf 0x00903264 0 false) = [(0, 0), (50, 50), (100, 100)] := by decide
theorem test_wldr_L4 : operandNumbers (outOf 0x00950003 0 false) = [(0, 0), (0x4000, -16384), (3, 3)] := by decide
theorem test_jam_L9 : operandNumbers (outOf 0x009FFFFF 0 false) = [(1, 1)] := by decide
theorem test_choRda_L11 : operandNumbers (outOf 0x00A1FFFF 0 false) = [(3, 3), (0x3F, 63), (511, 511)] := by decide
theorem test_choSof_L14 : operandNumbers (outOf 0x00A482FF 0 false) = [(1, 1), (1, 1), (255, 255)] := by decide
theorem test_choRdal_L15 : operandNumbers (outOf 0x00A68000 0 false) = [(1, 1)] := by decide
theorem test_raw_X6 : ((outOf 0xFFFFFFFF 9 true).op, (outOf 0xFFFFFFFF 9 true).opOut, (outOf 0xFFFFFFFF 9 true).raw) =
    (.raw, .nop, 0xFFFFFFFF) := by decide
theorem test_suppression_leaves_skp_X9 : (outOf 0x008C0080 0 true).opOut = .skp := by decide

/-! ### Lines: S1, S2, programs P1 and P3 of 95_test_vectors -/

theorem test_line_S1 : lineOf 0x008C0080 0 false (labelTable [outOf 0x008C0080 0 false]) =
    "\tskp\tRUN,addr03\t; flags:0x10 offset:0x02" := by decide
theorem test_line_S2 : lineOf 0x0032C000 6 false [] = "\twrax\tDACL,0.0\t; reg:0x16 k:0x0000" := by decide
theorem test_line_P1_3 : lineOf 0x00228800 3 false [(3, "addr03")] =
    "addr03:\trdax\tADCL,1.0\t; reg:0x14 k:0x0800" := by decide
theorem test_line_P1_2 : lineOf 0x00940FA0 2 false [] =
    "\twldr\tRMP0,1000,4096\t; val:0x0 val:0x03e8 val:0x0" := by decide
theorem test_line_P2_5 : lineOf 0x00A00D2C 5 false [] =
    "\tcho\trda,SIN0,COMPC|REG,300\t; val:0x0 flags:0x06 del:0x012c" := by decide
theorem test_line_P3_0 : lineOf 0x00887F80 0 false [] = "\tskp\tNEG,-2\t; flags:0x01 offset:0xfe" := by decide
theorem test_line_P3_1_raw : lineOf 0x00A21234 1 false [] = "\traw\t\t; 0x00a21234" := by decide
theorem test_line_P3_1_suppressed : lineOf 0x00A21234 1 true [] = "\tnop\t\t; 0x00a21234" := by decide
theorem test_line_P3_127 : lineOf 0x009FFFFF 127 false [(127, labelText 127)] =
    "addr127:\tjam\tRMP1\t; val:0x1" := by decide

/-- P1: the table in order of first reference; slot 7 refers to 3 again and adds nothing. -/
theorem test_labels_P1 :
    labelTable [outOf 0x008C0080 0 false, outOf 0x00888040 4 false, outOf 0x00883EC0 7 false] =
      [(3, "addr03"), (6, "addr06")] := by decide

/-- P3: warnings for slots 0 and 126, in address order. -/
theorem test_warnings_P3 :
    (warningsOf [outOf 0x00887F80 0 false, outOf 0xAB8C00BF 124 false, outOf 0x00890040 126 false]).map
      (fun w => (w.addr.toNat, w.offset.toInt, w.target.toInt)) = [(0, -2, -1), (126, 1, 128)] := by decide

/-! ### Steps -/

/-- From reset with a word placed, one step presents slot 0 and decodes it. -/
theorem test_step_runs_placed_word :
    (match step (State.reset.withFetchWord 32 0xAB8C00BF) with
      | .next t => (t.out.op, t.out.raw, t.out.target, t.host.records.length, t.host.pending.length)
      | .fault _ | .refused _ => (.nop, 0, 0, 0, 0)) = (.skp, 0xAB8C00BF, 3, 1, 0) := by decide +kernel

/-- From reset the host obtains the program first (R192); with no input supplied its launch check stops (R48). -/
theorem test_reset_without_input_is_fatal :
    (match step State.reset with
      | .fault .truncatedInput => true
      | .next _ | .refused _ => false) = true := by decide

theorem test_window_of_the_second_program :
    programWindow (List.replicate 512 0x00 ++ [0x11, 0x22]) 1 = [0x11, 0x22] := by decide +kernel

/-! ### Witnesses: the hypotheses of each statement hold somewhere -/

theorem witness_DecodeEncodeRoundTrip :
    (Instr.rda 511 0x3FF).op ≠ .raw ∧ (decode 0x00520000).op ≠ .raw ∧
    ((0x00520000#32) &&& ~~~(usedBits (decode 0x00520000).op) = 0) := by decide

theorem witness_EncoderKeepsTheUsedBits :
    (Instr.rda 511 0x3FF).wf = true ∧ (Instr.raw 0xFFA80000).wf = true ∧ (Instr.raw 0x00A3FFFF).wf = true := by
  decide

theorem witness_OpcodeRowsPartitionWords :
    (⟨.raw, 0x00C00000, 0x00C00000⟩ : Table.Row) ∈ Table.rows ∧
    Table.rowMatches ⟨.raw, 0x00C00000, 0x00C00000⟩ 0xFFFFFFFF = true := by decide

theorem witness_UnmatchedWordsAreRaw :
    (decode (atPorts 0x00A80000 0 false).word).op = .raw ∧ (decode (atPorts 0x00A3FFFF 0 false).word).op = .raw := by
  decide

theorem witness_IgnoredByteReachesRawOnly :
    (atPorts 0x008C0080 0 false).word.extractLsb' 0 24 = (0xAB8C0080#32).extractLsb' 0 24 := by decide

theorem witness_UnusedBitsAreIgnored :
    (atPorts 0x008C0080 0 false).word &&& usedBits (decode (atPorts 0x008C0080 0 false).word).op =
      0xAB8C00BF &&& usedBits (decode (atPorts 0x008C0080 0 false).word).op ∧
    (Instr.jam 1).op ≠ .raw ∧ (decode 0x009C0000).op ≠ .raw ∧
    ((0x009C0000#32) &&& ~~~(usedBits (decode 0x009C0000).op) = 0) := by decide

theorem witness_OpIdCodesDistinct :
    (Table.opIdCode (decode 0x00880000).op).toNat ≤ 17 ∧ Table.opIdCode .rda = Table.opIdCode .rda := by decide

theorem witness_RecordFieldsAsPorts :
    (outOf 0x00A80000 0 false).nopnd ≤ 0 ∧ (outOf 0x00520000 0 false).nopnd ≤ 1 ∧
    (outOf 0x00228800 0 false).nopnd ≤ 2 ∧ (Instr.raw 0x00A80000).op = .raw ∧ (Instr.jam 0).op ≠ .skp ∧
    Instr.skp 0 127 = .skp 0 127 := by decide

theorem witness_OperandsAreConvertedFields :
    (outOf 0x00227FFF 0 false).opnd1.kind = .frac ∧ (outOf 0x00950003 0 false).opnd1.kind = .sint ∧
    (outOf 0x00227FFF 0 false).opnd0.kind = .reg ∧ regName ((outOf 0x00227FFF 0 false).opnd0.field.setWidth 6) = none ∧
    (outOf 0x0077FFFF 0 false).opnd0.kind ≠ .sint ∧ (outOf 0x0077FFFF 0 false).opnd0.kind ≠ .frac := by decide

theorem witness_CoefficientFormats :
    [(outOf 0x00228800 0 false).opnd1.kind, (outOf 0x005A003F 0 false).opnd0.kind, (outOf 0x00080100 0 false).opnd0.kind,
      (outOf 0x00620000 0 false).opnd1.kind, (outOf 0x005A003F 0 false).opnd1.kind, (outOf 0x00A54500 0 false).opnd2.kind] =
      List.replicate 6 .frac := by decide

theorem witness_ConditionsAreReported :
    (atPhase .obtain).host.phase = .obtain ∧
    (atPhase .obtain).host.image.length < 512 * (atPhase .obtain).host.options.program.val + 512 ∧
    ¬((atPhase .render).host.phase = .obtain) := by decide

theorem witness_ConditionsAreExclusive :
    (outOf 0x00A80000 0 false).isRaw = true ∧ (outOf 0x00A80000 0 false).op = .raw ∧
    (outOf 0x00880000 127 false).isSkip = true ∧ (outOf 0x00880000 127 false).targetValid = false := by decide

theorem witness_NopStandsInForRaw :
    (atPorts 0x00A80000 0 true).word = 0x00A80000 ∧ (atPorts 0x00A80000 0 true).suppressRaw = true := by decide

/-- A machine for the worked examples: the word at the port, the slot, no raw suppression. -/
theorem witness_worked_examples :
    (atPorts 0x00019080 7 false).word = 0x00019080 ∧ (atPorts 0x00019080 7 false).addr = 7 ∧
    (atPorts 0x00019080 7 false).suppressRaw = false := by decide

theorem witness_opcode_hypotheses :
    ∀ n : BitVec 5, (n.setWidth 32 <<< 19 : Word).extractLsb' 19 5 = n := by decide

theorem witness_selecting_bits_hypotheses :
    (0x0093FFFF#32).extractLsb' 18 6 = 0b100100#6 ∧ (0x0097FFFF#32).extractLsb' 18 6 = 0b100101#6 ∧
    (0x00A1FFFF#32).extractLsb' 17 7 = 0b1010000#7 ∧ (0x00A5FFFF#32).extractLsb' 17 7 = 0b1010010#7 ∧
    (0x00A7FFFF#32).extractLsb' 17 7 = 0b1010011#7 ∧ (0x00A3FFFF#32).extractLsb' 17 7 = 0b1010001#7 := by decide

theorem witness_SkpRecord :
    (atPorts 0x008C0080 0 true).word = 0x008C0080 ∧ (atPorts 0x008C0080 0 true).addr = 0 := by decide

theorem witness_RawRecord : 0x15 ≤ ((0x00A80000#32).extractLsb' 19 5).toNat := by decide

theorem witness_SkipTargetIsExact :
    (0#8).toInt = 0 ∧ (0xFF#8).toInt = -1 ∧ (0xFE#8).toInt = -2 := by decide

theorem witness_InvalidTargetIsNotFatal :
    126 - ((atPorts 0 127 false).addr.toNat : Int) < (0#8).toInt ∧
    (0xFE#8).toInt < -1 - ((atPorts 0 0 false).addr.toNat : Int) := by decide

theorem witness_EverySlotReachesEverySlot :
    (atPorts 0 0 false).addr = 0 ∧ (atPorts 0 127 false).addr = 127 := by decide

theorem witness_NamesTables : regName 0x08 = none ∧ regName 0x1F = none ∧ regName 0x13 = none := by decide

theorem witness_buffer_forms :
    Memory.wf [(0, 0xAB), (511, 0x01)] = true ∧ Memory.wf [(4, 1)] = true ∧ Memory.wf [] = true := by decide

theorem witness_buffers_that_read_alike :
    Memory.wf [(7, 1)] = true ∧ ∀ x, Memory.read [(7, 1)] x = Memory.read (Memory.write [] 7 1) x :=
  ⟨by decide, fun _ => rfl⟩

theorem witness_StepRunsTheDecodedInstruction :
    (presenting (allSlots false)).host.phase = .decode ∧
    (presenting (allSlots false)).host.pending = ⟨0, false⟩ :: (allSlots false).tail ∧
    decode (slotWord (presenting (allSlots false)).mem 0) = .rda 0 0 := by decide

theorem witness_PlacedWordRunsNext : State.reset.mem.wf = true := by decide

/-- Two machines that agree on slot 5 alone. -/
theorem witness_BlockIsStateless :
    let s : State := presenting [⟨5, true⟩]
    let u : State := { s with word := 7, mem := [(0, 9)], host := { s.host with pending := [⟨5, true⟩, ⟨6, false⟩] } }
    s.host.phase = .decode ∧ u.host.phase = .decode ∧ s.host.pending = [⟨5, true⟩] ∧
      u.host.pending = ⟨5, true⟩ :: [⟨6, false⟩] ∧ slotWord s.mem 5 = slotWord u.mem 5 := by decide

theorem witness_BufferIsReadOnlyInARun :
    (∃ t, step (atPhase .render) = .next t) ∧ (atPhase .render).host.phase ≠ .obtain ∧
    (atPhase .render).host.phase ≠ .release := ⟨⟨_, rfl⟩, by decide, by decide⟩

theorem witness_DecodesCommute :
    (presenting (allSlots false)).RecordsAscending ∧ (presenting (allSlots false)).host.phase = .decode ∧
    (presenting (allSlots false)).host.pending = ⟨0, false⟩ :: ⟨1, false⟩ :: (allSlots false).tail.tail ∧
    (0 : Slot) ≠ 1 :=
  ⟨List.Pairwise.nil, by decide, by decide, by decide⟩

/-- A host that has made its records and labels and is about to render. -/
theorem witness_StepKeepsTheInvariant : (atPhase .render).Inv ∧ ∃ t, step (atPhase .render) = .next t := by
  refine ⟨⟨by unfold State.OutFollowsInputs; decide, by decide, ?_, List.Pairwise.nil, ⟨?_, ?_, ?_⟩, ⟨?_, ?_⟩, ?_⟩,
    ⟨_, rfl⟩⟩
  · intro r hr; cases hr
  · intro h; cases h
  · intro _; exact ⟨rfl, rfl, rfl⟩
  · intro _; rfl
  · intro _; rfl
  · intro h; cases h
  · intro h; cases h

theorem witness_SkipShowsLabelOrOffset :
    outOf 0x008C0080 0 false ∈ [outOf 0x008C0080 0 false] ∧ (outOf 0x008C0080 0 false).isSkip = true ∧
    (outOf 0x008C0080 0 false).targetValid = true ∧ (outOf 0x00887F80 0 false).targetValid = false := by decide

theorem witness_LabelsStandWhereReferenced :
    (9#7).toNat < 10 ∧ 10 ≤ (10#7).toNat ∧ labelText 9 = "addr09" ∧ labelText 10 = "addr10" ∧
    labelText 127 = "addr127" := by decide

/-- One record with a target out of range, in address order, and escalation. -/
theorem witness_WarningsUnlessQuiet :
    let s : State := { State.reset with host := { State.reset.host with
      phase := .render, records := [outOf 0x00887F80 0 false], escalate := true } }
    s.host.phase = .render ∧ s.host.options.quiet = false ∧ s.host.escalate = true ∧
      warningsOf s.host.records ≠ [] := by decide

/-- A host about to obtain program 0 from an image of zeros. -/
def withImage (length : Nat) : State :=
  { State.reset with host := { State.reset.host with image := List.replicate length 0x00 } }

theorem withImage_length (n : Nat) : (withImage n).host.image.length = n := by
  simp only [withImage, List.length_replicate]

/-- The boundary: 512 bytes are enough, 511 are short. -/
theorem witness_RunDisassemblesTheProgram :
    ((withImage 512).host.phase = .obtain ∧
      512 * (withImage 512).host.options.program.val + 512 ≤ (withImage 512).host.image.length) ∧
    ((withImage 511).host.phase = .obtain ∧
      (withImage 511).host.image.length < 512 * (withImage 511).host.options.program.val + 512) := by
  rw [withImage_length, withImage_length]
  decide

theorem witness_RunStartsByObtainingTheProgram :
    (withImage 511).host.phase = .obtain ∧ (withImage 512).host.phase = .obtain ∧
    (withImage 511).host.image.length = 511 ∧ (withImage 512).host.image.length = 512 :=
  ⟨rfl, rfl, withImage_length 511, withImage_length 512⟩

theorem witness_RunReleasesWhatItOwns :
    (atPhase .release).host.phase = .release ∧ Memory.wf [(0, 0xAB), (511, 0x01)] = true := by decide

theorem witness_FixedPointRange : 1 + 1 + 11 ≤ 19 ∧ 1 + 18 + 0 ≤ 19 ∧ 1 + 0 + 18 ≤ 19 ∧ 0 < 2 ^ (1 + 0 + 0) := by decide

theorem witness_FinishedRunIsAtRest : (atPhase .finished).host.phase = .finished := by decide

end Sys2Proof.Tests
end

section
/-! SUPPORT. Laws of fields and masks that Laws/Bits.lean does not state: placing the field taken from a word
keeps that field's bits and no other; the RAW set in terms of the fields the decoder dispatches on. -/

namespace Sys2Proof

/-- The bits of the container that a field of width `w` at the place of `f` covers. -/
def fieldMask (f : Field) (w : Nat) : Word := placeField f (BitVec.allOnes w)

/-- A field taken from a word and placed again keeps the field's bits and clears all others. -/
theorem placeField_takeField (f : Field) (w : Nat) (word : Word) :
    placeField f (takeField f w word) = word &&& fieldMask f w := by
  apply BitVec.eq_of_getLsbD_eq
  intro j hj
  simp only [fieldMask, BitVec.getLsbD_and, placeField_getLsbD, takeField_getLsbD, BitVec.getLsbD_allOnes]
  by_cases hl : f.lo ≤ j
  · simp [hl, hj, Nat.add_sub_cancel' hl, Bool.and_comm]
  · simp [hl]

theorem placeField_of_takeField_eq {f : Field} {w : Nat} {v : BitVec w} {word : Word} (h : takeField f w word = v) :
    placeField f v = word &&& fieldMask f w := by
  rw [← h, placeField_takeField]

theorem placeOpcode_of_takeField_eq {op : OpId} {word : Word}
    (h : takeField Table.opcode 5 word = Table.opcodeOf op) :
    placeOpcode op = word &&& fieldMask Table.opcode 5 :=
  placeField_of_takeField_eq h

/-- A word has no bit outside a mask exactly when the mask keeps all of it. -/
theorem and_not_eq_zero_iff (word mask : Word) : word &&& ~~~mask = 0 ↔ word &&& mask = word := by
  constructor
  · intro h
    calc word &&& mask
        = word &&& mask ||| word &&& ~~~mask := by simp [h]
      _ = word := by rw [← BitVec.and_or_distrib_left, BitVec.or_not_self, BitVec.and_allOnes]
  · intro h
    rw [← h, BitVec.and_assoc, BitVec.and_not_self]
    exact BitVec.and_zero

/-- The RAW set (R73) by opcode and, under opcode 0x14, by the two selecting bits of CHO. -/
theorem unmatched_iff (word : Word) :
    unmatched word = true ↔ 0x15 ≤ (takeField Table.opcode 5 word).toNat ∨
      takeField Table.opcode 5 word = 0x14#5 ∧ takeField Table.choMode 2 word = 0b01#2 := by
  have hcat : takeField Table.opcode 5 word ++ takeField Table.choMode 2 word = word.extractLsb' 17 7 :=
    BitVec.extractLsb'_append_extractLsb'_eq_extractLsb' (x := word) (start₁ := 17) (len₁ := 2) rfl
  have hpair : ∀ (a : BitVec 5) (b : BitVec 2), a ++ b = 0b1010001#7 ↔ a = 0x14#5 ∧ b = 0b01#2 := by decide
  simp only [unmatched, Bool.or_eq_true, decide_eq_true_eq, beq_iff_eq, ← hcat, hpair]
  rfl

end Sys2Proof
end

section
/-! The encoder against the decoder (00_scope R12; 30_encoding R73, R75): what `decode` answers on the RAW set, the
round trip from instructions, and the round trip from words. -/

namespace Sys2Proof

/-! ### RAW and well-formedness (R73) -/

theorem wf_of_op_ne_raw {i : Instr} (h : i.op ≠ .raw) : i.wf = true := by
  cases i with
  | raw word => exact absurd rfl h
  | _ => rfl

theorem decodeWld_op_ne_raw (word : Word) : (decodeWld word).op ≠ .raw := by
  unfold decodeWld
  split <;> simp [Instr.op]

/-- Of the four CHO selections the decoder leaves one unmatched (R63). -/
theorem decodeCho_op_eq_raw_iff (word : Word) :
    (decodeCho word).op = .raw ↔ takeField Table.choMode 2 word = 0b01#2 := by
  unfold decodeCho
  split
  next h => simp [Instr.op, h]
  next h => simp [Instr.op, h]
  next h => simp [Instr.op, h]
  next h00 h10 h11 =>
    have hrest : ∀ mode : BitVec 2, mode ≠ 0b00#2 → mode ≠ 0b10#2 → mode ≠ 0b11#2 → mode = 0b01#2 := by decide
    simp [Instr.op, hrest _ h00 h10 h11]

/-- Whatever is decoded as RAW carries the whole word (R150). -/
theorem decode_eq_raw_of_op {word : Word} (h : (decode word).op = .raw) : decode word = .raw word := by
  revert h
  unfold decode
  split
  case h_19 => exact fun h => absurd h (decodeWld_op_ne_raw word)
  case h_21 =>
    unfold decodeCho
    split <;> simp [Instr.op]
  all_goals simp [Instr.op]

/-- The decoder answers RAW on the RAW set of R73 and nowhere else. -/
theorem decode_op_eq_raw_iff (word : Word) : (decode word).op = .raw ↔ unmatched word = true := by
  rw [unmatched_iff]
  unfold decode
  split
  case h_19 h => simp [decodeWld_op_ne_raw, h]
  case h_21 h => simp [decodeCho_op_eq_raw_iff, h]
  case h_22 =>
    have hge : 0x15 ≤ (takeField Table.opcode 5 word).toNat := by
      simp only [imp_false] at *
      bv_omega
    simp [Instr.op, hge]
  all_goals simp [Instr.op, *]

theorem decode_of_unmatched {word : Word} (h : unmatched word = true) : decode word = .raw word :=
  decode_eq_raw_of_op ((decode_op_eq_raw_iff word).mpr h)

theorem decode_wf (word : Word) : (decode word).wf = true := by
  by_cases h : (decode word).op = .raw
  · rw [decode_eq_raw_of_op h]
    exact (decode_op_eq_raw_iff word).mp h
  · exact wf_of_op_ne_raw h

/-! ### From an instruction to its word and back -/

/-- The decoder finds the opcode that the encoder placed, and under it every field at its place. -/
theorem decode_encode_of_op_ne_raw {i : Instr} (h : i.op ≠ .raw) : decode (encode i) = i := by
  cases i with
  | raw word => exact absurd rfl h
  | _ =>
    simp (disch := decide) [decode, encode, decodeWld, decodeCho, Table.opcodeOf, takeField_opcode_placeOpcode,
      takeField_placeOpcode_below, takeField_placeField_same, takeField_placeField_disjoint]

theorem decode_encode {i : Instr} (h : i.wf = true) : decode (encode i) = i := by
  cases i with
  | raw word => exact decode_of_unmatched h
  | _ => exact decode_encode_of_op_ne_raw nofun

/-! ### From a word to its instruction and back (R12, R75) -/

section
variable {word : Word} {op : OpId} (hop : takeField Table.opcode 5 word = Table.opcodeOf op)
include hop

/-! An opcode and fields that stand in a word, placed again, keep the bits they cover. -/

theorem placed_one {w1 : Nat} {f1 : Field} {x : BitVec w1} (h1 : takeField f1 w1 word = x)
    (hused : fieldMask Table.opcode 5 ||| fieldMask f1 w1 = usedBits op) :
    placeOpcode op ||| placeField f1 x = word &&& usedBits op := by
  rw [placeOpcode_of_takeField_eq hop, placeField_of_takeField_eq h1, ← BitVec.and_or_distrib_left, hused]

theorem placed_two {w1 w2 : Nat} {f1 f2 : Field} {x : BitVec w1} {y : BitVec w2}
    (h1 : takeField f1 w1 word = x) (h2 : takeField f2 w2 word = y)
    (hused : fieldMask Table.opcode 5 ||| fieldMask f1 w1 ||| fieldMask f2 w2 = usedBits op) :
    placeOpcode op ||| placeField f1 x ||| placeField f2 y = word &&& usedBits op := by
  rw [placeOpcode_of_takeField_eq hop, placeField_of_takeField_eq h1, placeField_of_takeField_eq h2]
  simp only [← BitVec.and_or_distrib_left, hused]

theorem placed_four {w1 w2 w3 w4 : Nat} {f1 f2 f3 f4 : Field} {x : BitVec w1} {y : BitVec w2} {z : BitVec w3}
    {u : BitVec w4} (h1 : takeField f1 w1 word = x) (h2 : takeField f2 w2 word = y)
    (h3 : takeField f3 w3 word = z) (h4 : takeField f4 w4 word = u)
    (hused : fieldMask Table.opcode 5 ||| fieldMask f1 w1 ||| fieldMask f2 w2 ||| fieldMask f3 w3 |||
      fieldMask f4 w4 = usedBits op) :
    placeOpcode op ||| placeField f1 x ||| placeField f2 y ||| placeField f3 z ||| placeField f4 u =
      word &&& usedBits op := by
  rw [placeOpcode_of_takeField_eq hop, placeField_of_takeField_eq h1, placeField_of_takeField_eq h2,
    placeField_of_takeField_eq h3, placeField_of_takeField_eq h4]
  simp only [← BitVec.and_or_distrib_left, hused]

end

theorem encode_decodeWld {word : Word} (h : takeField Table.opcode 5 word = 0x12#5) :
    encode (decodeWld word) = word &&& usedBits (decodeWld word).op := by
  unfold decodeWld
  split
  next hsel => exact placed_four h hsel rfl rfl rfl rfl
  next hsel =>
    have hsel : takeField Table.lfoSelect 1 word = 1#1 := (BitVec.eq_zero_or_eq_one _).resolve_left hsel
    exact placed_four h hsel rfl rfl rfl rfl

theorem encode_decodeCho {word : Word} (h : takeField Table.opcode 5 word = 0x14#5) :
    encode (decodeCho word) = word &&& usedBits (decodeCho word).op := by
  unfold decodeCho
  split
  next hsel => exact placed_four h hsel rfl rfl rfl rfl
  next hsel => exact placed_four h hsel rfl rfl rfl rfl
  next hsel => exact placed_two h hsel rfl rfl
  next => exact BitVec.and_allOnes.symm

/-- Encoding what was decoded clears exactly the bits that the operation does not use. -/
theorem encode_decode (word : Word) : encode (decode word) = word &&& usedBits (decode word).op := by
  unfold decode
  split
  -- RMPA, MULX, AND, OR, XOR and JAM have one operand field; WLDS and WLDR, and the CHO forms, select further
  case h_2 h | h_11 h | h_15 h | h_16 h | h_17 h | h_20 h => exact placed_one h rfl rfl
  case h_19 h => exact encode_decodeWld h
  case h_21 h => exact encode_decodeCho h
  case h_22 => exact BitVec.and_allOnes.symm
  all_goals exact placed_two ‹takeField Table.opcode 5 word = _› rfl rfl rfl

/-- The encoder sets no bit that the operation does not use: an encoded word is what is kept of itself. -/
theorem encode_and_not_usedBits {i : Instr} (h : i.wf = true) : encode i &&& ~~~(usedBits i.op) = 0 := by
  rw [and_not_eq_zero_iff]
  have hkept := encode_decode (encode i)
  rw [decode_encode h] at hkept
  exact hkept.symm

/-- A word is canonical, the encoder's word of what it decodes to, exactly when all its unused bits are zero. -/
theorem encode_decode_eq_self_iff (word : Word) :
    encode (decode word) = word ↔ word &&& ~~~(usedBits (decode word).op) = 0 := by
  rw [encode_decode, and_not_eq_zero_iff]

/-- Settles O2: the round trip from instructions, and from words through the bits that are kept. -/
theorem decodeEncodeRoundTrip : Obligations.DecodeEncodeRoundTrip :=
  ⟨fun _ h => decode_encode_of_op_ne_raw h,
    fun _ h => encode_and_not_usedBits (wf_of_op_ne_raw h),
    fun word _ => encode_decode_eq_self_iff word⟩

/-- Settles O3, from the same two round trips, with the RAW set (R73) for the RAW instructions. -/
theorem encoderKeepsTheUsedBits : Obligations.EncoderKeepsTheUsedBits :=
  ⟨fun _ h => decode_encode h, fun word => ⟨decode_wf word, encode_decode word⟩⟩

end Sys2Proof
end

section
/-! Every instruction drives one record, which the input ports alone determine (00_scope R11; 10_state R24). -/

namespace Sys2Proof.Machine

/-- `exec_drives` with its quantifiers exchanged: operation, operands and skip offset are the instruction's own, the
same in every state. -/
theorem exec_drives_same_in_every_state (i : Instr) : ∃ op opnds offset, ∀ s : State,
    exec i s = .next { s with out := mkRecord s.word s.addr s.suppressRaw op opnds offset } := by
  cases i <;> exact ⟨_, _, _, fun _ => rfl⟩

/-- Settles O9: the record is `mkRecord` of the ports, with the instruction's own operation and operands. -/
theorem decodeTotalDeterministicNoSideEffect : Obligations.DecodeTotalDeterministicNoSideEffect := by
  intro i
  obtain ⟨op, opnds, offset, hexec⟩ := exec_drives_same_in_every_state i
  exact ⟨fun word addr suppressRaw => mkRecord word addr suppressRaw op opnds offset, hexec⟩

end Sys2Proof.Machine
end

section
/-! The range of a fixed-point format (00_scope R9): the value of a FRAC operand is the two's complement reading of
its field over `2^n`, and the library's bounds on that reading give the range. -/

namespace Sys2Proof.Machine

/-- A field of at most 20 bits fits `num`, so a FRAC operand is worth its field's two's complement reading. -/
theorem fraction_frac (f : Field) (fmt : FixedFormat) {w : Nat} (v : BitVec w) (h : w ≤ 20) :
    (Operand.frac f fmt v).fraction = (v.toInt : Rat) / 2 ^ fmt.fbits := by
  simp only [Operand.fraction, Operand.frac, BitVec.toInt_signExtend_of_le h]

section
variable (m n : Nat)

/-- `-2^m` is the least two's complement number of `1 + m + n` bits, scaled. -/
theorem least_scaled : ((-2 ^ (m + n) : Int) : Rat) / 2 ^ n = -2 ^ m := by
  push_cast
  field_simp
  ring

/-- `2^m - 2^-n` is the greatest two's complement number of `1 + m + n` bits, scaled. -/
theorem greatest_scaled : ((2 ^ (m + n) - 1 : Int) : Rat) / 2 ^ n = 2 ^ m - 1 / 2 ^ n := by
  push_cast
  field_simp
  ring

variable {m n}

theorem scaled_toInt_range (v : BitVec (1 + m + n)) :
    -(2 ^ m : Rat) ≤ (v.toInt : Rat) / 2 ^ n ∧ (v.toInt : Rat) / 2 ^ n ≤ (2 ^ m : Rat) - 1 / 2 ^ n := by
  have hw : 1 + m + n - 1 = m + n := by omega
  have hle := v.le_toInt
  have hge := v.toInt_le
  rw [hw] at hle hge
  rw [← least_scaled m n, ← greatest_scaled m n]
  constructor <;> gcongr

theorem fracRange_of_width_le (h : 1 + m + n ≤ 20) :
    FracRange (1 + m + n) n (-(2 ^ m : Rat)) ((2 ^ m : Rat) - 1 / 2 ^ n) := by
  have hw : 1 + m + n - 1 = m + n := by omega
  have hvalue : ∀ v : BitVec (1 + m + n), fracValue n v = (v.toInt : Rat) / 2 ^ n := fun v => fraction_frac _ _ v h
  simp only [FracRange, hvalue]
  refine ⟨scaled_toInt_range, ⟨BitVec.intMin _, ?_⟩, ⟨BitVec.intMax _, ?_⟩⟩
  · rw [BitVec.toInt_intMin_of_pos (by omega), hw, least_scaled]
  · rw [BitVec.toInt_intMax, hw, greatest_scaled]

/-- `sext` of R9, written out: fields from `2^(m+n)` on stand for negative numbers. -/
theorem cast_toInt (v : BitVec (1 + m + n)) :
    (v.toInt : Rat) = if v.toNat < 2 ^ (m + n) then (v.toNat : Rat) else (v.toNat : Rat) - 2 ^ (1 + m + n) := by
  have hw : 1 + m + n - 1 = m + n := by omega
  rw [← sextInt_toNat (by omega) v, sextInt, hw]
  split <;> push_cast <;> rfl

end

/-- Settles O13: the operand's value is the scaled reading of its field, whose range holds in every width. -/
theorem fixedPointRange : Obligations.FixedPointRange := by
  refine ⟨fun m n h => ⟨fracRange_of_width_le (by omega), fun f v => ?_⟩, fun m n v h => ?_⟩
  · rw [fraction_frac _ _ v (by omega), cast_toInt]
  · have hv : (BitVec.ofNat (1 + m + n) v).toNat = v := by rw [BitVec.toNat_ofNat, Nat.mod_eq_of_lt h]
    have hsext := sextInt_toNat (by omega) (BitVec.ofNat (1 + m + n) v)
    rw [hv] at hsext
    rw [hsext]
    exact scaled_toInt_range _

end Sys2Proof.Machine
end

section
/-! What an instruction drives, said once: its operation, operands and skip offset, which the ports complete to a
record (10_state R24). -/

namespace Sys2Proof

/-- The operands an instruction puts on the record, in assembler order (R24, R26). -/
def Instr.operands : Instr → List Machine.Operand
  | .rda daddr k | .wra daddr k | .wrap daddr k => Machine.operandsFD daddr k
  | .rmpa k => [.frac Table.fdK Config.s1p8 k]
  | .rdax r k | .rdfx r k | .wrax r k | .wrhx r k | .wrlx r k | .maxx r k => Machine.operandsFR r k
  | .mulx r => [.reg Table.frReg r]
  | .log k d => Machine.operandsFS Config.s4p1 k d
  | .exp k d | .sof k d => Machine.operandsFS Config.s0p5 k d
  | .and mask | .or mask | .xor mask => [.uint Table.flMask mask]
  | .skp flags offset => [.flags Table.fpFlags .skpFlags flags, .sint Table.fpOffset offset]
  | .wlds n f a => [.enum Table.fwN .lfo2s n, .uint Table.fwsF f, .uint Table.fwsA a]
  | .wldr n f a => [.enum Table.fwN .lfo2r n, .sint Table.fwrF f, .enum Table.fwrA .rampAmp a]
  | .jam n => [.enum Table.fjN .lfo2r n]
  | .choRda n flags daddr =>
    [.enum Table.choN .lfo4 n, .flags Table.choFlags .choFlags flags, .daddr Table.choLow daddr]
  | .choSof n flags d =>
    [.enum Table.choN .lfo4 n, .flags Table.choFlags .choFlags flags, .frac Table.choLow Config.s0p8 d]
  | .choRdal n => [.enum Table.choN .lfo4 n]
  | .raw _ => []

/-- The offset of a skip-class instruction; no other has one (R24, R130). -/
def Instr.skipOffset : Instr → Option (BitVec 8)
  | .skp _ offset => some offset
  | _ => none

theorem Instr.operands_length (i : Instr) : i.operands.length = (Table.descriptors i.op).length := by
  cases i <;> rfl

theorem Instr.op_ne_nop (i : Instr) : i.op ≠ .nop := by
  cases i <;> exact OpId.noConfusion

theorem Instr.skipOffset_isSome (i : Instr) : i.skipOffset.isSome = (i.op == .skp) := by
  cases i <;> rfl

theorem Instr.skipOffset_eq_none {i : Instr} (h : i.op ≠ .skp) : i.skipOffset = none := by
  rw [← Option.not_isSome_iff_eq_none, i.skipOffset_isSome, beq_iff_eq]
  exact h

/-- No entry of the opcode table has more operands than the record has places (R24). -/
theorem Table.descriptors_length_le (op : OpId) : (Table.descriptors op).length ≤ 3 := by
  cases op <;> decide

end Sys2Proof

namespace Sys2Proof.Machine

/-- `exec_drives` with the record named: an instruction drives its own operation, operands and skip offset. -/
theorem exec_eq_mkRecord (i : Instr) (s : State) :
    exec i s = .next { s with out := mkRecord s.word s.addr s.suppressRaw i.op i.operands i.skipOffset } := by
  cases i <;> rfl

/-- The 9-bit bus holds the sum exactly: it lies from -127 to 255 (R131). -/
theorem toInt_skipTarget (addr : Slot) (offset : BitVec 8) :
    (skipTarget addr offset).toInt = (addr.toNat : Int) + 1 + offset.toInt := by
  have haddr : (addr.setWidth 9).toInt = addr.toNat := by
    rw [BitVec.toInt_setWidth]
    have := addr.isLt
    apply Int.bmod_eq_of_le <;> omega
  have hoffset : (offset.signExtend 9).toInt = offset.toInt := BitVec.toInt_signExtend_of_le (by decide)
  have hlt := addr.isLt
  have hle := offset.le_toInt
  have hge := offset.toInt_le
  rw [skipTarget, BitVec.toInt_add, BitVec.toInt_add, haddr, hoffset, BitVec.toInt_one (by decide)]
  simp only [Int.bmod_add_bmod]
  apply Int.bmod_eq_of_le <;> omega

theorem targetInRange_iff (target : BitVec 9) :
    targetInRange target = true ↔ 0 ≤ target.toInt ∧ target.toInt ≤ 127 := by
  simp only [targetInRange, Bool.and_eq_true, decide_eq_true_eq]
  exact Iff.rfl

/-- Settles O11: the record is `mkRecord` of the instruction's own operation, operands and offset. -/
theorem recordFieldsAsPorts : Obligations.RecordFieldsAsPorts := by
  intro i s
  refine ⟨_, exec_eq_mkRecord i s, rfl, rfl, rfl, i.op_ne_nop, beq_iff_eq, i.operands_length,
    i.operands_length.trans_le (Table.descriptors_length_le i.op), ?_, List.getD_eq_default _ _,
    List.getD_eq_default _ _, List.getD_eq_default _ _, ?_, ?_, ?_, rfl, rfl⟩
  · intro hraw
    exact i.operands_length.trans (by rw [hraw]; rfl)
  · show i.skipOffset.isSome = true ↔ i.op = .skp
    rw [i.skipOffset_isSome, beq_iff_eq]
  · rintro flags offset rfl
    exact ⟨toInt_skipTarget s.addr offset, targetInRange_iff _⟩
  · intro hskp
    simp [mkRecord, i.skipOffset_eq_none hskp]

end Sys2Proof.Machine
end

section
/-! The meanings against the decode algorithm (30_encoding R62 to R64): the operation looked up is the decoded
one, and the loop over its descriptors gives the operands that the instruction drives. -/

namespace Sys2Proof

theorem decodeWld_opcodeOf (word : Word) : Table.opcodeOf (decodeWld word).op = 0x12 := by
  unfold decodeWld
  split <;> rfl

theorem decodeCho_opcodeOf {word : Word} (h : (decodeCho word).op ≠ .raw) :
    Table.opcodeOf (decodeCho word).op = 0x14 := by
  revert h
  unfold decodeCho
  split
  case h_4 => exact fun h => absurd rfl h
  all_goals exact fun _ => rfl

/-- What is not decoded as RAW has the opcode number of its operation (R63, R72). -/
theorem decode_opcodeOf {word : Word} (h : (decode word).op ≠ .raw) :
    takeField Table.opcode 5 word = Table.opcodeOf (decode word).op := by
  revert h
  unfold decode
  split
  case h_19 hop => exact fun _ => hop.trans (decodeWld_opcodeOf word).symm
  case h_21 hop => exact fun h => hop.trans (decodeCho_opcodeOf h).symm
  case h_22 => exact fun h => absurd rfl h
  all_goals exact fun _ => ‹takeField Table.opcode 5 word = _›

end Sys2Proof

namespace Sys2Proof.Machine

/-- A bit that the algorithm reads off the instruction is the bit of the field the decoder takes. -/
theorem insn_getLsbD_eq_takeField (word : Word) (f : Field) (w j : Nat) (hj : j < w) (h : f.lo + w ≤ 24) :
    (word.setWidth 24 : Insn).getLsbD (f.lo + j) = (takeField f w word).getLsbD j := by
  have hlt : f.lo + j < 24 := by omega
  rw [takeField_getLsbD, BitVec.getLsbD_setWidth]
  simp [hj, hlt]

theorem lookupOp_of_wld {word : Word} (h : takeField Table.opcode 5 word = 0x12#5) :
    lookupOp (word.setWidth 24) = (decodeWld word).op := by
  have h18 : (word.setWidth 24 : Insn).getLsbD 18 = (takeField Table.lfoSelect 1 word).getLsbD 0 :=
    insn_getLsbD_eq_takeField word Table.lfoSelect 1 0 (by decide) (by decide)
  simp only [lookupOp, insn_opcode_eq_takeField, h18, h, decodeWld]
  rcases BitVec.eq_zero_or_eq_one (takeField Table.lfoSelect 1 word) with hsel | hsel <;> rw [hsel] <;> rfl

theorem lookupOp_of_cho {word : Word} (h : takeField Table.opcode 5 word = 0x14#5) :
    lookupOp (word.setWidth 24) = (decodeCho word).op := by
  have h18 : (word.setWidth 24 : Insn).getLsbD 18 = (takeField Table.choMode 2 word).getLsbD 1 :=
    insn_getLsbD_eq_takeField word Table.choMode 2 1 (by decide) (by decide)
  have h17 : (word.setWidth 24 : Insn).getLsbD 17 = (takeField Table.choMode 2 word).getLsbD 0 :=
    insn_getLsbD_eq_takeField word Table.choMode 2 0 (by decide) (by decide)
  have hmode : ∀ mode : BitVec 2, mode = 0b00#2 ∨ mode = 0b10#2 ∨ mode = 0b11#2 ∨ mode = 0b01#2 := by decide
  simp only [lookupOp, insn_opcode_eq_takeField, h18, h17, h, decodeCho]
  rcases hmode (takeField Table.choMode 2 word) with hsel | hsel | hsel | hsel <;> rw [hsel] <;> rfl

/-- The algorithm looks up the operation that the decoder gives (R63). -/
theorem lookupOp_eq_decode_op (word : Word) : lookupOp (word.setWidth 24) = (decode word).op := by
  unfold decode
  split
  case h_19 h => exact lookupOp_of_wld h
  case h_21 h => exact lookupOp_of_cho h
  case h_22 =>
    have hge : 0x15 ≤ (takeField Table.opcode 5 word).toNat := by
      simp only [imp_false] at *
      bv_omega
    simp only [lookupOp, insn_opcode_eq_takeField]
    rw [if_neg (by omega), if_neg (by omega), List.getD_eq_default _ _ (by exact Nat.le_of_succ_le hge)]
    rfl
  all_goals
    simp only [lookupOp, insn_opcode_eq_takeField, ‹takeField Table.opcode 5 word = _›]
    rfl

theorem operandOf_descriptors_decodeWld (word : Word) :
    (Table.descriptors (decodeWld word).op).map (operandOf · (word.setWidth 24)) = (decodeWld word).operands := by
  unfold decodeWld
  split
  · simp only [Instr.op, Instr.operands, Table.descriptors, List.map]
    rw [operandOf_enum word Table.fwN 1 _ rfl (by decide), operandOf_uint word Table.fwsF 9 rfl (by decide),
      operandOf_uint word Table.fwsA 8 rfl (by decide)]
  · simp only [Instr.op, Instr.operands, Table.descriptors, List.map]
    rw [operandOf_enum word Table.fwN 1 _ rfl (by decide), operandOf_sint word Table.fwrF 15 rfl (by decide),
      operandOf_enum word Table.fwrA 2 _ rfl (by decide)]

theorem operandOf_descriptors_decodeCho (word : Word) :
    (Table.descriptors (decodeCho word).op).map (operandOf · (word.setWidth 24)) = (decodeCho word).operands := by
  have hn := operandOf_enum word Table.choN 2 .lfo4 rfl (by decide)
  have hflags := operandOf_flags word Table.choFlags 6 .choFlags rfl (by decide)
  have hdaddr := operandOf_daddr word Table.choLow 9 rfl (by decide)
  have hd := operandOf_frac word Table.choLow 9 Config.s0p8 rfl (by decide)
  unfold decodeCho
  split <;> simp only [Instr.op, Instr.operands, Table.descriptors, List.map, hn, hflags, hdaddr, hd]

/-- The loop of R62 over the descriptors of the decoded operation gives the operands that its meaning drives. -/
theorem operandOf_descriptors_decode (word : Word) :
    (Table.descriptors (decode word).op).map (operandOf · (word.setWidth 24)) = (decode word).operands := by
  have hfdDaddr := operandOf_daddr word Table.fdDaddr 9 rfl (by decide)
  have hfdK := operandOf_frac word Table.fdK 10 Config.s1p8 rfl (by decide)
  have hfrReg := operandOf_reg word Table.frReg rfl (by decide)
  have hfrK := operandOf_frac word Table.frK 13 Config.s1p11 rfl (by decide)
  have hfsK := operandOf_frac word Table.fsK 13 Config.s1p11 rfl (by decide)
  have hfsD := fun fmt => operandOf_frac word Table.fsD 6 fmt rfl (by decide)
  have hflMask := operandOf_uint word Table.flMask 19 rfl (by decide)
  have hfpFlags := operandOf_flags word Table.fpFlags 5 .skpFlags rfl (by decide)
  have hfpOffset := operandOf_sint word Table.fpOffset 8 rfl (by decide)
  have hfjN := operandOf_enum word Table.fjN 1 .lfo2r rfl (by decide)
  unfold decode
  split
  case h_19 => exact operandOf_descriptors_decodeWld word
  case h_21 => exact operandOf_descriptors_decodeCho word
  all_goals simp only [Instr.op, Instr.operands, Table.descriptors, List.map, operandsFD, operandsFR, operandsFS,
    hfdDaddr, hfdK, hfrReg, hfrK, hfsK, hfsD, hflMask, hfpFlags, hfpOffset, hfjN]

theorem decode_eq_skp_of_op {word : Word} (h : (decode word).op = .skp) :
    decode word = .skp (takeField Table.fpFlags 5 word) (takeField Table.fpOffset 8 word) := by
  have hopcode := decode_opcodeOf (word := word) (by rw [h]; decide)
  rw [h, Table.opcodeOf] at hopcode
  simp [decode, hopcode]

/-- The target over the integers is the sum that the bus carries. -/
theorem toInt_skipTarget_eq_targetInt (addr : Slot) (word : Word) :
    (skipTarget addr (takeField Table.fpOffset 8 word)).toInt = targetInt addr (word.setWidth 24) := by
  rw [toInt_skipTarget, targetInt, show (6 : Nat) = Table.fpOffset.lo from rfl,
    insn_field_eq_takeField word Table.fpOffset 8 (by decide), sextInt_toNat (by decide)]

theorem targetInRange_skipTarget (addr : Slot) (word : Word) :
    targetInRange (skipTarget addr (takeField Table.fpOffset 8 word)) =
      (decide (0 ≤ targetInt addr (word.setWidth 24)) && decide (targetInt addr (word.setWidth 24) ≤ 127)) := by
  rw [Bool.eq_iff_iff, targetInRange_iff, toInt_skipTarget_eq_targetInt, Bool.and_eq_true, decide_eq_true_eq,
    decide_eq_true_eq]

/-- The record of the algorithm is the one the decoded instruction drives. -/
theorem blockRecord_eq_mkRecord (word : Word) (addr : Slot) (suppressRaw : Bool) :
    blockRecord word addr suppressRaw =
      mkRecord word addr suppressRaw (decode word).op (decode word).operands (decode word).skipOffset := by
  simp only [blockRecord, lookupOp_eq_decode_op, operandOf_descriptors_decode]
  by_cases hskp : (decode word).op = .skp
  · rw [decode_eq_skp_of_op hskp]
    simp only [mkRecord, Instr.op, Instr.skipOffset, if_true, ofInt_targetInt, targetInRange_skipTarget]
    rfl
  · simp only [mkRecord, Instr.skipOffset_eq_none hskp, if_neg hskp, beq_eq_false_iff_ne.mpr hskp]
    rfl

/-- The block as a function (R20, R62): the decoded word, run on the ports, drives the algorithm's record. -/
theorem exec_decode_eq_blockRecord (s : State) :
    exec (decode s.word) s = .next { s with out := blockRecord s.word s.addr s.suppressRaw } := by
  rw [exec_eq_mkRecord, blockRecord_eq_mkRecord]

/-- A presentation answers the block's record of the slot's word on the ports, and the host keeps it. -/
theorem step_of_presentation {s : State} {p : Presentation} {rest : List Presentation}
    (h : s.host.phase = .decode) (hp : s.host.pending = p :: rest) :
    step s = .next (State.keepRecord { s.present p with
      out := blockRecord (slotWord s.mem p.addr) p.addr p.suppressRaw } rest) := by
  rw [step_present h hp]
  exact decodeSlot_of_exec (exec_decode_eq_blockRecord (s.present p))

/-- Settles O43: the record driven is the block's of the slot's word, its index and `suppress_raw`. -/
theorem blockIsStateless : Obligations.BlockIsStateless := by
  intro s u p rest more hs hsp hu hup hword
  refine ⟨_, _, step_of_presentation hs hsp, step_of_presentation hu hup, ?_, ?_⟩
  · simp [hword]
  · simp [hword]

end Sys2Proof.Machine
end

section
/-! Every operand of the record as its descriptor's field (10_state R26; 30_encoding R64, R77): the operand function
of the algorithm on one descriptor, and the shape of the table's descriptors. -/

namespace Sys2Proof

/-- The form of the descriptors in the opcode table: a kind that is not null, a place among the operand bits 18:0, at
most 11 fraction bits, and none but for FRAC (R64, R65). -/
def Descriptor.InTableForm (d : Descriptor) : Prop :=
  d.kind ≠ .none ∧ d.field.lo ≤ d.field.hi ∧ d.field.hi ≤ 18 ∧ d.fbits ≤ 11 ∧ (d.kind ≠ .frac → d.fbits = 0)

theorem Table.descriptors_inTableForm (op : OpId) : ∀ d ∈ Table.descriptors op, d.InTableForm := by
  unfold Descriptor.InTableForm
  cases op <;> decide

end Sys2Proof

namespace Sys2Proof.Machine

/-- The descriptor an operand shows on the record. -/
def Operand.descriptor (o : Operand) : Descriptor := ⟨o.kind, ⟨o.hi, o.lo⟩, o.fbits, o.table⟩

@[simp] theorem operandOf_descriptor (d : Descriptor) (insn : Insn) : (operandOf d insn).descriptor = d := rfl

/-- An operand whose field and number are those of its place in the word (the clauses of R26, R64 and R77). -/
def Operand.ConvertedFrom (word : Word) (o : Operand) : Prop :=
  o.kind ≠ .none ∧ o.lo ≤ o.hi ∧ o.hi ≤ 18 ∧
    o.field.toNat = word.toNat / 2 ^ o.lo % 2 ^ (o.hi - o.lo + 1) ∧
    (o.kind = .sint ∨ o.kind = .frac → o.num.toInt =
      if o.field.toNat < 2 ^ (o.hi - o.lo) then (o.field.toNat : Int)
      else (o.field.toNat : Int) - 2 ^ (o.hi - o.lo + 1)) ∧
    (o.kind ≠ .sint → o.kind ≠ .frac → o.num.toInt = o.field.toNat) ∧
    o.fbits ≤ 11 ∧ (o.kind ≠ .frac → o.fbits = 0) ∧
    (o.named = false ↔ o.kind = .reg ∧ regName (o.field.setWidth 6) = none)

/-- `sext_W` of a field is kept by every bus at least as wide as the field (R77). -/
theorem toInt_ofInt_sextInt {w n f : Nat} (hw : 0 < w) (hn : w ≤ n) (hf : f < 2 ^ w) :
    (BitVec.ofInt n (sextInt w f)).toInt = sextInt w f := by
  have hfield : (BitVec.ofNat w f).toNat = f := by rw [BitVec.toNat_ofNat, Nat.mod_eq_of_lt hf]
  rw [← hfield, ofInt_sextInt hw, BitVec.toInt_signExtend_of_le hn, sextInt_toNat hw]

/-- `named` is false exactly for a register number without a name (R28). -/
theorem operandOf_named_eq_false_iff (d : Descriptor) (word : Word) :
    (operandOf d (word.setWidth 24)).named = false ↔
      d.kind = .reg ∧ regName ((operandOf d (word.setWidth 24)).field.setWidth 6) = none := by
  simp [operandOf]

section
variable {d : Descriptor} (hd : d.InTableForm) (word : Word)
include hd

/-- The field is zero-extended without loss: it has at most 19 bits. -/
theorem operandOf_field_toNat :
    (operandOf d (word.setWidth 24)).field.toNat = word.toNat / 2 ^ d.field.lo % 2 ^ d.field.width := by
  obtain ⟨-, hlo, hhi, -, -⟩ := hd
  have hw : d.field.width ≤ 19 := by rw [Field.width]; omega
  simp only [operandOf, BitVec.toNat_setWidth, BitVec.toNat_ofNat]
  rw [insn_div_mod _ _ _ (by rw [Field.width]; omega), Nat.mod_eq_of_lt]
  exact (Nat.mod_lt _ (by positivity)).trans_le (Nat.pow_le_pow_right (by decide) hw)

/-- The number of an operand is its field's value, two's complement under SINT and FRAC (R64). -/
theorem operandOf_num_toInt : (operandOf d (word.setWidth 24)).num.toInt =
    if d.kind = .sint ∨ d.kind = .frac then sextInt d.field.width (operandOf d (word.setWidth 24)).field.toNat
    else ((operandOf d (word.setWidth 24)).field.toNat : Int) := by
  have hfield := operandOf_field_toNat hd word
  obtain ⟨-, hlo, hhi, -, -⟩ := hd
  have hw : d.field.width ≤ 19 := by rw [Field.width]; omega
  have hlt : word.toNat / 2 ^ d.field.lo % 2 ^ d.field.width < 2 ^ d.field.width := Nat.mod_lt _ (by positivity)
  have hle : (2 : Nat) ^ d.field.width ≤ 2 ^ 19 := Nat.pow_le_pow_right (by decide) hw
  rw [hfield]
  simp only [operandOf, BitVec.toNat_setWidth]
  rw [insn_div_mod _ _ _ (by rw [Field.width]; omega)]
  split
  · exact toInt_ofInt_sextInt (by rw [Field.width]; omega) (by omega) hlt
  · rw [BitVec.toInt_eq_toNat_of_lt, BitVec.toNat_ofNat, Nat.mod_eq_of_lt]
    · omega
    · rw [BitVec.toNat_ofNat, Nat.mod_eq_of_lt] <;> omega

theorem operandOf_convertedFrom : (operandOf d (word.setWidth 24)).ConvertedFrom word := by
  have hfield := operandOf_field_toNat hd word
  have hnum := operandOf_num_toInt hd word
  obtain ⟨hkind, hlo, hhi, hfbits, hscale⟩ := hd
  refine ⟨hkind, hlo, hhi, hfield, fun hsigned => ?_, fun hsint hfrac => ?_, hfbits, hscale,
    operandOf_named_eq_false_iff d word⟩
  · exact hnum.trans (if_pos hsigned)
  · exact hnum.trans (if_neg (not_or.mpr ⟨hsint, hfrac⟩))

end

/-- The operands that the loop of R62 collects, one for each descriptor of the operation looked up. -/
def blockOperands (word : Word) : List Operand :=
  (Table.descriptors (lookupOp (word.setWidth 24))).map fun d => operandOf d (word.setWidth 24)

theorem blockOperands_length_le (word : Word) : (blockOperands word).length ≤ 3 :=
  (List.length_map _).trans_le (Table.descriptors_length_le _)

theorem blockOperands_map_descriptor (word : Word) :
    (blockOperands word).map Operand.descriptor = Table.descriptors (lookupOp (word.setWidth 24)) := by
  simp [blockOperands, Function.comp_def]

theorem blockOperands_convertedFrom {word : Word} {o : Operand} (h : o ∈ blockOperands word) :
    o.ConvertedFrom word := by
  obtain ⟨d, hd, rfl⟩ := List.mem_map.mp h
  exact operandOf_convertedFrom (Table.descriptors_inTableForm _ d hd) word

/-- A place of the record holds an operand collected there or is null. -/
theorem blockOperands_getD (word : Word) (j : Nat) :
    (blockOperands word).getD j .null = .null ∨ ((blockOperands word).getD j .null).ConvertedFrom word := by
  rcases Nat.lt_or_ge j (blockOperands word).length with hj | hj
  · right
    rw [List.getD_eq_getElem _ _ hj]
    exact blockOperands_convertedFrom (List.getElem_mem hj)
  · exact .inl (List.getD_eq_default _ _ hj)

/-- The three places of the record hold the whole of an operand list that fits them. -/
theorem take_three_places {opnds : List Operand} (h : opnds.length ≤ 3) :
    [opnds.getD 0 .null, opnds.getD 1 .null, opnds.getD 2 .null].take opnds.length = opnds := by
  match opnds, h with
  | [], _ => rfl
  | [_], _ => rfl
  | [_, _], _ => rfl
  | [_, _, _], _ => rfl

theorem blockRecord_operands (word : Word) (addr : Slot) (suppressRaw : Bool) :
    (blockRecord word addr suppressRaw).operands (blockRecord word addr suppressRaw).nopnd = blockOperands word :=
  take_three_places (blockOperands_length_le word)

/-- Settles O12: the record's operands are the algorithm's, one for each descriptor of the operation. -/
theorem operandsAreConvertedFields : Obligations.OperandsAreConvertedFields := by
  intro s
  refine ⟨_, exec_decode_eq_blockRecord s, ?_, ?_⟩
  · exact (congrArg (List.map Operand.descriptor) (blockRecord_operands ..)).trans
      (blockOperands_map_descriptor s.word)
  · intro o ho
    simp only [List.mem_cons, List.not_mem_nil, or_false] at ho
    rcases ho with rfl | rfl | rfl
    · exact blockOperands_getD s.word 0
    · exact blockOperands_getD s.word 1
    · exact blockOperands_getD s.word 2

end Sys2Proof.Machine
end

section
/-! The invariant of the machine (10_state R20, R37; 60_exceptions R174 to R179): it holds after reset, and each move
of the host keeps it. -/

namespace Sys2Proof.Machine

/-! ### Reset (R37) -/

/-- What R37 says of the reset state: the record is the function of the inputs. -/
theorem reset_outFollowsInputs : State.reset.OutFollowsInputs := by
  unfold State.OutFollowsInputs
  decide

theorem reset_inv : State.reset.Inv where
  out := reset_outFollowsInputs
  mem := reset_mem_wf
  faithful := fun _ hr => absurd hr List.not_mem_nil
  ascending := List.Pairwise.nil
  early := ⟨fun _ => rfl, fun _ => ⟨rfl, rfl, rfl⟩, fun _ => rfl⟩
  passes := ⟨nofun, nofun⟩
  released := nofun

/-- Settles O46: the host after reset holds nothing, so every clause but the ports' is about empty lists. -/
theorem resetMeetsTheInvariant : Obligations.ResetMeetsTheInvariant :=
  ⟨reset_inv, rfl, rfl, rfl, rfl, rfl, rfl⟩

/-! ### The moves of a run -/

theorem programWindow_length_le (image : List Byte) (p : Fin 8) : (programWindow image p).length ≤ 512 :=
  List.length_take_le ..

@[simp] theorem blockRecord_addr (word : Word) (addr : Slot) (suppressRaw : Bool) :
    (blockRecord word addr suppressRaw).addr = addr := rfl

variable {s : State}

theorem startRun_inv (h : s.Inv) : (startRun s).Inv where
  out := h.out
  mem := Memory.ofBytes_wf (programWindow_length_le ..)
  faithful := fun _ hr => absurd hr List.not_mem_nil
  ascending := List.Pairwise.nil
  early := ⟨fun _ => rfl, fun _ => ⟨rfl, rfl, rfl⟩, fun _ => rfl⟩
  passes := by simp [State.PassesFaithful]
  released := by simp [State.NothingKept]

/-- A presentation adds the block's record of the slot's word; the buffer and the other records stay (R174). -/
theorem presentation_inv (h : s.Inv) (hphase : s.host.phase = .decode) (p : Presentation)
    (rest : List Presentation) :
    (State.keepRecord { s.present p with
      out := blockRecord (slotWord s.mem p.addr) p.addr p.suppressRaw } rest).Inv where
  out := rfl
  mem := h.mem
  faithful := by
    intro r hr
    rcases mem_insertRecord hr with rfl | hr
    · exact ⟨p.suppressRaw, rfl⟩
    · exact h.faithful r hr
  ascending := insertRecord_ascending h.ascending
  early := h.early
  passes := by simp [State.PassesFaithful, hphase]
  released := by simp [State.NothingKept, hphase]

theorem labelPass_inv (h : s.Inv) (hphase : s.host.phase = .decode) : (labelPass s).Inv where
  out := h.out
  mem := h.mem
  faithful := h.faithful
  ascending := h.ascending
  early := by
    obtain ⟨-, hwritten, houtput⟩ := h.early
    simp [State.NothingEarly, hwritten (.inl hphase), houtput (.inl hphase)]
  passes := by simp [State.PassesFaithful]
  released := by simp [State.NothingKept]

theorem renderPass_inv (h : s.Inv) (hphase : s.host.phase = .render) : (renderPass s).Inv where
  out := h.out
  mem := h.mem
  faithful := h.faithful
  ascending := h.ascending
  early := by
    obtain ⟨-, -, houtput⟩ := h.early
    simp [State.NothingEarly, houtput (.inr (.inl hphase))]
  passes := ⟨fun _ => h.passes.1 (.inl hphase), fun _ => ⟨rfl, rfl, rfl⟩⟩
  released := by simp [State.NothingKept]

theorem releaseRun_inv (h : s.Inv) : (releaseRun s).Inv where
  out := h.out
  mem := rfl
  faithful := fun _ hr => absurd hr List.not_mem_nil
  ascending := List.Pairwise.nil
  early := by simp [State.NothingEarly]
  passes := by simp [State.PassesFaithful]
  released := fun _ => ⟨rfl, rfl, rfl, rfl⟩

/-- Settles O47: the moves of `step_next_cases`, each of which keeps the invariant. -/
theorem stepKeepsTheInvariant : Obligations.StepKeepsTheInvariant := by
  intro s t h hstep
  rcases step_next_cases hstep with ⟨-, -, rfl⟩ | ⟨hphase, p, rest, hpending, -⟩ | ⟨hphase, -, rfl⟩ |
    ⟨hphase, rfl⟩ | ⟨-, rfl⟩ | ⟨-, rfl⟩
  · exact startRun_inv h
  · rw [step_of_presentation hphase hpending] at hstep
    cases hstep
    exact presentation_inv h hphase p rest
  · exact labelPass_inv h hphase
  · exact renderPass_inv h hphase
  · exact releaseRun_inv h
  · exact h

end Sys2Proof.Machine
end

section
/-! The codes of the operations (10_state R25). -/

namespace Sys2Proof

/-- The OpIds in the order of R25's table. -/
def OpId.inTableOrder : List OpId :=
  [.rda, .rmpa, .wra, .wrap, .rdax, .rdfx, .wrax, .wrhx, .wrlx, .maxx, .mulx, .log, .exp, .sof, .and, .or, .xor,
    .skp, .wlds, .wldr, .jam, .choRda, .choSof, .choRdal, .raw, .nop]

/-- A code is the operation's place in the table. -/
theorem OpId.inTableOrder_getElem_opIdCode (op : OpId) :
    OpId.inTableOrder[(Table.opIdCode op).toNat]? = some op := by
  cases op <;> rfl

theorem Table.opIdCode_injective : Function.Injective Table.opIdCode := by
  intro a b h
  have ha := OpId.inTableOrder_getElem_opIdCode a
  rw [h, OpId.inTableOrder_getElem_opIdCode b] at ha
  exact (Option.some.inj ha).symm

theorem Table.opIdCode_toNat_le (op : OpId) : (Table.opIdCode op).toNat ≤ 25 :=
  have ⟨hlt, _⟩ := List.getElem?_eq_some_iff.mp (OpId.inTableOrder_getElem_opIdCode op)
  Nat.le_of_lt_succ hlt

theorem Table.opcodeOf_eq_opIdCode {op : OpId} (h : (Table.opIdCode op).toNat ≤ 17) :
    Table.opcodeOf op = Table.opIdCode op := by
  revert h
  cases op <;> decide

/-- Settles O8: a code is the place in the table, and up to 17 also the opcode number of R72. -/
theorem opIdCodesDistinct : Obligations.OpIdCodesDistinct := by
  refine ⟨rfl, fun _ _ h => Table.opIdCode_injective h, Table.opIdCode_toNat_le, fun w h => ?_⟩
  have hraw : (decode w).op ≠ .raw := fun hop => absurd h (by rw [hop]; decide)
  exact (decode_opcodeOf hraw).trans (Table.opcodeOf_eq_opIdCode h)

end Sys2Proof
end

section
/-! The names tables (10_state R28 to R32). -/

namespace Sys2Proof.Machine

/-- The register values without a name, as R28 lists them (log 12). -/
theorem regName_eq_none_iff (r : BitVec 6) : regName r = none ↔
    (0x08 ≤ r.toNat ∧ r.toNat ≤ 0x0F) ∨ r.toNat = 0x13 ∨ (0x19 ≤ r.toNat ∧ r.toNat ≤ 0x1F) := by
  unfold regName
  split
  case h_17 =>
    simp only [ite_eq_right_iff, reduceCtorEq, imp_false] at *
    omega
  all_goals simp [*]

theorem regLabel_of_unnamed {r : BitVec 6} (h : regName r = none) : regLabel r = "0x" ++ hexDigits 2 r.toNat := by
  simp only [regLabel, h]

/-- From 0x20 on the registers are the general ones, named by their number (R28). -/
theorem regName_of_general {r : BitVec 6} (h : 0x20 ≤ r.toNat) :
    regName r = some ("REG" ++ toString (r.toNat - 0x20)) := by
  unfold regName
  split
  case h_17 => exact if_pos h
  all_goals omega

theorem regName_one_append (n : BitVec 5) : regName (0b1#1 ++ n) = some ("REG" ++ toString n.toNat) := by
  have hnumber : (0b1#1 ++ n).toNat = 0x20 + n.toNat := by
    rw [BitVec.toNat_append]
    exact (Nat.two_pow_add_eq_or_of_lt n.isLt 1).symm
  rw [regName_of_general (by omega), hnumber, Nat.add_sub_cancel_left]

/-- One flag of a table contributes its name, in its place, when its bit is set. -/
theorem filterMap_flag_cons (mask : BitVec 19) (bit : Nat) (name : String) (flags : List (Nat × String)) :
    ((bit, name) :: flags).filterMap (fun (bit, name) => if mask.getLsbD bit then some name else none) =
      (if mask.getLsbD bit then [name] else []) ++
        flags.filterMap (fun (bit, name) => if mask.getLsbD bit then some name else none) := by
  cases h : mask.getLsbD bit <;> simp [h]

theorem setFlagNames_skpFlags (m : BitVec 5) : setFlagNames .skpFlags (m.setWidth 19) =
    (if m.getLsbD 4 then ["RUN"] else []) ++ (if m.getLsbD 3 then ["ZRC"] else []) ++
    (if m.getLsbD 2 then ["ZRO"] else []) ++ (if m.getLsbD 1 then ["GEZ"] else []) ++
    (if m.getLsbD 0 then ["NEG"] else []) := by
  simp only [setFlagNames, flagNames, skpFlagNames, filterMap_flag_cons]
  simp

theorem setFlagNames_choFlags (m : BitVec 6) : setFlagNames .choFlags (m.setWidth 19) =
    (if m.getLsbD 5 then ["NA"] else []) ++ (if m.getLsbD 4 then ["RPTR2"] else []) ++
    (if m.getLsbD 3 then ["COMPA"] else []) ++ (if m.getLsbD 2 then ["COMPC"] else []) ++
    (if m.getLsbD 1 then ["REG"] else []) ++ (if m.getLsbD 0 then ["COS"] else []) := by
  simp only [setFlagNames, flagNames, choFlagNames, filterMap_flag_cons]
  simp

/-- Settles O37: the registers by number, the flags by bit, the selectors by evaluation of their tables. -/
theorem namesTables : Obligations.NamesTables :=
  ⟨regName_eq_none_iff, fun _ => regLabel_of_unnamed, rfl, regName_one_append, setFlagNames_skpFlags,
    setFlagNames_choFlags, rfl, rfl, rfl, rfl⟩

end Sys2Proof.Machine
end

section
/-! A slot's word and its bytes (20_memory R42, R43, R45). -/

namespace Sys2Proof.Machine

/-- A container is its four bytes, the first in the high end: `BYTE_ORDER` is big (R44). -/
theorem wordOfBytes_eq_append (b0 b1 b2 b3 : Byte) : wordOfBytes b0 b1 b2 b3 = b0 ++ b1 ++ b2 ++ b3 := rfl

theorem slotWord_eq_append (m : Memory) (a : Slot) :
    slotWord m a = m.read (4 * a.toNat) ++ m.read (4 * a.toNat + 1) ++ m.read (4 * a.toNat + 2) ++
      m.read (4 * a.toNat + 3) :=
  wordOfBytes_eq_append ..

theorem extract_high_of_append (b0 b1 b2 b3 : Byte) : (b0 ++ b1 ++ b2 ++ b3).extractLsb' 24 8 = b0 := by
  simp only [BitVec.append_assoc, BitVec.cast_eq, BitVec.extractLsb'_append_eq_left]

theorem memRead_isSome_iff (m : Memory) (x : Nat) : (memRead m x).isSome = true ↔ x % 4 = 0 ∧ x ≤ 508 := by
  have hbound : x + Config.slotBytes ≤ Config.progBytes ↔ x ≤ 508 := by
    rw [Config.slotBytes, Config.progBytes]
    omega
  rw [memRead, Option.isSome_ite, hbound, Config.slotBytes]

/-- Every slot is a legal address (R45). -/
theorem memRead_slotBase (m : Memory) (a : Slot) : memRead m (slotBase a) = some (slotWord m a) := by
  have ha : a.toNat < 128 := a.isLt
  refine if_pos ?_
  rw [slotBase, Config.slotBytes, Config.progBytes]
  omega

/-- Settles O38: the container in big byte order, and the condition of `MemRead`. -/
theorem fetchIsBigEndianAndAligned : Obligations.FetchIsBigEndianAndAligned := by
  refine ⟨fun m a => ⟨slotWord_eq_append m a, ?_, ?_, memRead_slotBase m a⟩, memRead_isSome_iff⟩
  · rw [slotWord_eq_append, extract_high_of_append]
  · rw [slotWord_eq_append, BitVec.extractLsb'_append_eq_right]

end Sys2Proof.Machine
end

section
/-! A presentation and the buffer (20_memory R42, R46, R50, R52; 60_exceptions R174). -/

namespace Sys2Proof.Machine

/-- Settles O41: `step_present` runs the decoded instruction, and `exec_eq_mkRecord` says that it changes the
record alone. -/
theorem stepRunsTheDecodedInstruction : Obligations.StepRunsTheDecodedInstruction := by
  intro s p rest i hphase hpending hdecode
  subst hdecode
  have hexec := exec_eq_mkRecord (decode (slotWord s.mem p.addr)) (s.present p)
  exact ⟨decode_wf _, _, hexec, (step_present hphase hpending).trans (decodeSlot_of_exec hexec), rfl, rfl⟩

/-- Obtaining the program and releasing it are the only moves that touch the buffer (R50 a, R52). -/
theorem step_keeps_mem {s t : State} (h : step s = .next t) (hobtain : s.host.phase ≠ .obtain)
    (hrelease : s.host.phase ≠ .release) : t.mem = s.mem := by
  rcases step_next_cases h with ⟨hphase, -, -⟩ | ⟨hphase, p, rest, hpending, -⟩ | ⟨-, -, rfl⟩ | ⟨-, rfl⟩ |
    ⟨hphase, -⟩ | ⟨-, rfl⟩
  · exact absurd hphase hobtain
  · rw [step_of_presentation hphase hpending] at h
    cases h
    rfl
  · exact labelPass_mem s
  · exact renderPass_mem s
  · exact absurd hphase hrelease
  · rfl

/-- Settles O44, from `step_keeps_mem`. -/
theorem bufferIsReadOnlyInARun : Obligations.BufferIsReadOnlyInARun := by
  intro s t h hobtain hrelease
  have hmem : t.mem = s.mem := step_keeps_mem h hobtain hrelease
  exact ⟨hmem, fun x => by rw [hmem]⟩

end Sys2Proof.Machine
end

section
/-! Records kept in either order (20_memory R50; 60_exceptions R174). -/

namespace Sys2Proof.Machine

variable {r q : Record}

theorem insertRecord_cons_of_lt (h : r.addr.toNat < q.addr.toNat) (qs : List Record) :
    insertRecord r (q :: qs) = r :: q :: qs :=
  if_pos h

theorem insertRecord_cons_of_eq (h : r.addr = q.addr) (qs : List Record) :
    insertRecord r (q :: qs) = r :: qs := by
  rw [insertRecord, h, if_neg (lt_irrefl _), if_pos rfl]

theorem insertRecord_cons_of_gt (h : q.addr.toNat < r.addr.toNat) (qs : List Record) :
    insertRecord r (q :: qs) = q :: insertRecord r qs := by
  have hne : r.addr ≠ q.addr := fun e => absurd h (by rw [e]; exact lt_irrefl _)
  rw [insertRecord, if_neg h.not_gt, if_neg hne]

/-- Keeping records of two slots commutes. The record of the lower slot, `r`, is placed against the list's head
first; where it goes past the head, so does `q`, and the rest of the list decides. -/
theorem insertRecord_comm_of_lt (h : r.addr.toNat < q.addr.toNat) (rs : List Record) :
    insertRecord r (insertRecord q rs) = insertRecord q (insertRecord r rs) := by
  induction rs with
  | nil =>
    calc insertRecord r [q] = [r, q] := insertRecord_cons_of_lt h []
      _ = insertRecord q [r] := (insertRecord_cons_of_gt h []).symm
  | cons x xs ih =>
    rcases lt_trichotomy r.addr.toNat x.addr.toNat with hrx | hrx | hrx
    · rw [insertRecord_cons_of_lt hrx, insertRecord_cons_of_gt h]
      rcases lt_trichotomy q.addr.toNat x.addr.toNat with hqx | hqx | hqx
      · rw [insertRecord_cons_of_lt hqx, insertRecord_cons_of_lt h]
      · rw [insertRecord_cons_of_eq (BitVec.eq_of_toNat_eq hqx), insertRecord_cons_of_lt h]
      · rw [insertRecord_cons_of_gt hqx, insertRecord_cons_of_lt hrx]
    · have heq : r.addr = x.addr := BitVec.eq_of_toNat_eq hrx
      rw [insertRecord_cons_of_gt (hrx ▸ h), insertRecord_cons_of_eq heq, insertRecord_cons_of_eq heq,
        insertRecord_cons_of_gt h]
    · have hqx : x.addr.toNat < q.addr.toNat := hrx.trans h
      rw [insertRecord_cons_of_gt hqx, insertRecord_cons_of_gt hrx, insertRecord_cons_of_gt hrx,
        insertRecord_cons_of_gt hqx, ih]

theorem insertRecord_comm (h : r.addr ≠ q.addr) (rs : List Record) :
    insertRecord r (insertRecord q rs) = insertRecord q (insertRecord r rs) := by
  rcases lt_or_gt_of_ne (fun e => h (BitVec.eq_of_toNat_eq e)) with hlt | hgt
  · exact insertRecord_comm_of_lt hlt rs
  · exact (insertRecord_comm_of_lt hgt rs).symm

/-- Two presentations leave the records of both slots kept, the first one's first, and the buffer as it was. -/
theorem steps_of_two_presentations {s : State} {p p' : Presentation} {rest : List Presentation}
    (hphase : s.host.phase = .decode) (hpending : s.host.pending = p :: p' :: rest) :
    ∃ s1 s2, step s = .next s1 ∧ step s1 = .next s2 ∧ s2.mem = s.mem ∧
      s2.host = { s.host with
        pending := rest
        records := insertRecord (blockRecord (slotWord s.mem p'.addr) p'.addr p'.suppressRaw)
          (insertRecord (blockRecord (slotWord s.mem p.addr) p.addr p.suppressRaw) s.host.records) } :=
  ⟨_, _, step_of_presentation hphase hpending, step_of_presentation hphase rfl, rfl, rfl⟩

/-- Settles O45: each order keeps the same two records, and keeping them commutes. It does so in every list of
records, so that the records stand in address order is not used. -/
theorem decodesCommute : Obligations.DecodesCommute := by
  rintro s u p q rest - hphase hpending rfl hne
  obtain ⟨s1, s2, hs1, hs2, hsmem, hshost⟩ := steps_of_two_presentations hphase hpending
  obtain ⟨u1, u2, hu1, hu2, humem, huhost⟩ := steps_of_two_presentations
    (s := { s with host := { s.host with pending := q :: p :: rest } }) hphase rfl
  refine ⟨s1, s2, u1, u2, hs1, hs2, hu1, hu2, ?_, hsmem.trans humem.symm⟩
  rw [hshost, huhost, insertRecord_comm]
  exact hne.symm

end Sys2Proof.Machine
end

section
/-! The bits of a word that its instruction uses (00_scope R12; 30_encoding R66 to R72, R75): two words that agree on
them decode to the same instruction. -/

namespace Sys2Proof

/-- Words that agree on a mask have the same fields inside it. -/
theorem takeField_eq_of_and_eq {u w mask : Word} (h : u &&& mask = w &&& mask) {f : Field} {n : Nat}
    (hmask : takeField f n mask = BitVec.allOnes n) : takeField f n u = takeField f n w := by
  have hkept : ∀ word : Word, takeField f n (word &&& mask) = takeField f n word := fun word => by
    rw [takeField, BitVec.extractLsb'_and, ← takeField, ← takeField, hmask, BitVec.and_allOnes]
  rw [← hkept u, h, hkept w]

variable {u w : Word}

theorem decodeWld_eq_of_and_eq (h : u &&& usedBits (decodeWld u).op = w &&& usedBits (decodeWld u).op) :
    decodeWld u = decodeWld w := by
  have hmask : usedBits (decodeWld u).op = 0x00FFFFFF := by
    unfold decodeWld
    split <;> rfl
  rw [hmask] at h
  simp (disch := decide) only [decodeWld, takeField_eq_of_and_eq h]

theorem decodeCho_eq_of_and_eq (h : u &&& usedBits (decodeCho u).op = w &&& usedBits (decodeCho u).op)
    (hraw : (decodeCho u).op ≠ .raw) : decodeCho u = decodeCho w := by
  have hmode : takeField Table.choMode 2 u = takeField Table.choMode 2 w :=
    takeField_eq_of_and_eq h (by unfold decodeCho; split <;> simp only [Instr.op, usedBits] <;> decide)
  revert h hraw
  unfold decodeCho
  rw [← hmode]
  split <;> intro h hraw
  case h_4 => exact absurd rfl hraw
  all_goals
    simp only [Instr.op, usedBits] at h
    simp (disch := decide) only [takeField_eq_of_and_eq h]

/-- What is not decoded as RAW is decided by the bits that its operation uses (R75). -/
theorem decode_eq_of_and_eq (h : u &&& usedBits (decode u).op = w &&& usedBits (decode u).op)
    (hraw : (decode u).op ≠ .raw) : decode u = decode w := by
  have hopcode : takeField Table.opcode 5 u = takeField Table.opcode 5 w :=
    takeField_eq_of_and_eq h (by cases (decode u).op <;> rfl)
  revert h hraw
  unfold decode
  rw [← hopcode]
  split <;> intro h hraw
  case h_19 => exact decodeWld_eq_of_and_eq h
  case h_21 => exact decodeCho_eq_of_and_eq h hraw
  case h_22 => exact absurd rfl hraw
  all_goals
    simp only [Instr.op, usedBits] at h
    simp (disch := decide) only [takeField_eq_of_and_eq h]

/-- Every bit of a RAW word is used, so the words are the same there. -/
theorem decode_eq_of_agree_on_usedBits (h : u &&& usedBits (decode u).op = w &&& usedBits (decode u).op) :
    decode u = decode w := by
  by_cases hraw : (decode u).op = .raw
  · have hall : usedBits (decode u).op = BitVec.allOnes 32 := by rw [hraw]; rfl
    rw [hall, BitVec.and_allOnes, BitVec.and_allOnes] at h
    rw [h]
  · exact decode_eq_of_and_eq h hraw

/-- Canonical words of one instruction are its encoding, hence the same word (R12). -/
theorem eq_of_decode_eq_of_canonical (hu : u &&& ~~~(usedBits (decode u).op) = 0)
    (hw : w &&& ~~~(usedBits (decode w).op) = 0) (h : decode u = decode w) : u = w :=
  calc u = encode (decode u) := ((encode_decode_eq_self_iff u).mpr hu).symm
    _ = encode (decode w) := by rw [h]
    _ = w := (encode_decode_eq_self_iff w).mpr hw

end Sys2Proof
end

section
/-! The block as a function of the word at its input port (30_encoding R62, R73 to R76). -/

namespace Sys2Proof.Machine

/-- Settles O10, which is the equation between the block and the algorithm. -/
theorem meaningsImplementDecodeAlgorithm : Obligations.MeaningsImplementDecodeAlgorithm :=
  exec_decode_eq_blockRecord

/-- Beside the field `raw`, the record depends on the 24 instruction bits alone (R74). -/
theorem blockRecord_eq_of_insn_eq {u w : Word} (h : (u.setWidth 24 : Insn) = w.setWidth 24) (addr : Slot)
    (suppressRaw : Bool) :
    blockRecord w addr suppressRaw = { blockRecord u addr suppressRaw with raw := w } := by
  simp only [blockRecord, h]

/-- Settles O6: the algorithm reads the 24 instruction bits. -/
theorem ignoredByteReachesRawOnly : Obligations.IgnoredByteReachesRawOnly := by
  intro s w h
  have hinsn : (s.word.setWidth 24 : Insn) = w.setWidth 24 := by
    rw [BitVec.setWidth_eq_extractLsb' (by decide), BitVec.setWidth_eq_extractLsb' (by decide)]
    exact h
  exact ⟨_, _, exec_decode_eq_blockRecord s, exec_decode_eq_blockRecord { s with word := w },
    blockRecord_eq_of_insn_eq hinsn s.addr s.suppressRaw⟩

/-- Settles O7: words that agree on the used bits decode to one instruction, whose record keeps the word in `raw`
only. -/
theorem unusedBitsAreIgnored : Obligations.UnusedBitsAreIgnored := by
  refine ⟨fun s w h => ?_, by decide, fun i hi => encode_and_not_usedBits (wf_of_op_ne_raw hi),
    fun u w _ => eq_of_decode_eq_of_canonical⟩
  rw [← decode_eq_of_agree_on_usedBits h]
  exact ⟨_, _, exec_eq_mkRecord _ s, exec_eq_mkRecord _ { s with word := w }, rfl⟩

/-! ### The RAW set (R73) -/

theorem unmatched_iff_extract (w : Word) : unmatched w = true ↔
    0x15 ≤ (w.extractLsb' 19 5).toNat ∨ w.extractLsb' 17 7 = 0b1010001#7 := by
  simp only [unmatched, Bool.or_eq_true, decide_eq_true_eq, beq_iff_eq]

/-- Among the instruction patterns, read as numbers, the RAW set is two intervals: the opcodes from 0x15 on, and the
CHO selection 01 under opcode 0x14. -/
theorem decode_ofNat_op_eq_raw_iff {n : Nat} (h : n < 2 ^ 24) : (decode (BitVec.ofNat 32 n)).op = .raw ↔
    0x15 * 2 ^ 19 ≤ n ∨ 0b1010001 * 2 ^ 17 ≤ n ∧ n < 0b1010010 * 2 ^ 17 := by
  rw [decode_op_eq_raw_iff, unmatched_iff_extract, ← BitVec.toNat_inj]
  simp only [BitVec.extractLsb'_toNat, BitVec.toNat_ofNat, Nat.shiftRight_eq_div_pow]
  omega

theorem rawPatterns_eq_intervals :
    ((Finset.range (2 ^ 24)).filter fun n => (decode (BitVec.ofNat 32 n)).op = .raw) =
      Finset.Ico (0x15 * 2 ^ 19) (2 ^ 24) ∪ Finset.Ico (0b1010001 * 2 ^ 17) (0b1010010 * 2 ^ 17) := by
  ext n
  simp only [Finset.mem_filter, Finset.mem_range, Finset.mem_union, Finset.mem_Ico]
  constructor
  · rintro ⟨hn, hraw⟩
    have := (decode_ofNat_op_eq_raw_iff hn).mp hraw
    omega
  · intro hn
    have hlt : n < 2 ^ 24 := by omega
    exact ⟨hlt, (decode_ofNat_op_eq_raw_iff hlt).mpr (by omega)⟩

/-- The intervals hold `11 * 2^19` and `2^17` patterns. -/
theorem rawPatterns_card :
    ((Finset.range (2 ^ 24)).filter fun n => (decode (BitVec.ofNat 32 n)).op = .raw).card = 5898240 := by
  have hdisjoint : Disjoint (Finset.Ico (0x15 * 2 ^ 19) (2 ^ 24))
      (Finset.Ico (0b1010001 * 2 ^ 17) (0b1010010 * 2 ^ 17)) := by
    rw [Finset.disjoint_left]
    intro n hlow hhigh
    rw [Finset.mem_Ico] at hlow hhigh
    omega
  rw [rawPatterns_eq_intervals, Finset.card_union_of_disjoint hdisjoint, Nat.card_Ico, Nat.card_Ico]
  rfl

/-- Settles O5: the RAW set as the decoder answers it, the record of its words, and its size. -/
theorem unmatchedWordsAreRaw : Obligations.UnmatchedWordsAreRaw := by
  refine ⟨fun w => (decode_op_eq_raw_iff w).trans (unmatched_iff_extract w), fun s hraw => ?_, rawPatterns_card⟩
  rw [decode_eq_raw_of_op hraw]
  exact ⟨_, exec_eq_mkRecord _ s, rfl, rfl, rfl, rfl⟩

/-! ### Operations and mnemonics (R76, R90) -/

/-- Only raw suppression puts NOP on `op_out` (R152). -/
theorem suppressedOp_eq_nop_iff {op : OpId} (h : op ≠ .nop) (suppressRaw : Bool) :
    suppressedOp op suppressRaw = .nop ↔ op = .raw ∧ suppressRaw = true := by
  unfold suppressedOp
  split
  next hsuppressed => exact iff_of_true rfl hsuppressed
  next hkept => exact iff_of_false h hkept

/-- No operation is printed as a short form of R90; `nop` is left out, being the mnemonic of a suppressed RAW. -/
theorem mnemonicText_not_shortForm (op : OpId) : mnemonicText op ∉ ["clr", "not", "absa", "ldax", "jmp"] := by
  cases op <;> decide

theorem expandShort_op_ne_raw (f : ShortForm) : (expandShort f).op ≠ .raw := by
  cases f <;> exact OpId.noConfusion

/-- Settles O18: the operation is the instruction's own, and the expansions come back from their words. -/
theorem noAliasIsRecognised : Obligations.NoAliasIsRecognised :=
  ⟨fun i s => ⟨_, exec_eq_mkRecord i s, rfl, suppressedOp_eq_nop_iff i.op_ne_nop s.suppressRaw,
      mnemonicText_not_shortForm _⟩,
    fun f => decode_encode_of_op_ne_raw (expandShort_op_ne_raw f), rfl, rfl, rfl, fun _ => rfl, rfl, fun _ => rfl⟩

/-- Settles O1: each word evaluates to its instruction. -/
theorem specWordsDecode : Obligations.SpecWordsDecode := by
  unfold Obligations.SpecWordsDecode
  decide

end Sys2Proof.Machine
end

section
/-! The five fixed-point formats (30_encoding R65): their ranges are those of R9 at their widths, and the operands
that use them are read off the opcode table. -/

namespace Sys2Proof

theorem Instr.operands_map_descriptor (i : Instr) :
    i.operands.map Machine.Operand.descriptor = Table.descriptors i.op := by
  cases i <;> rfl

/-- The descriptor the record shows in an operand place: the table's, or the null operand's. -/
def Table.descriptorAt (op : OpId) (j : Nat) : Descriptor :=
  (Table.descriptors op).getD j Machine.Operand.null.descriptor

/-- R65's table of the FRAC operands: the operation, the place and the scale. -/
def Descriptor.FracOf (op : OpId) (d : Descriptor) : Prop :=
  (op ∈ [OpId.rdax, .rdfx, .wrax, .wrhx, .wrlx, .maxx] ∧ d.field.hi = 12 ∧ d.field.lo = 0 ∧ d.fbits = 11) ∨
  (op ∈ [OpId.log, .exp, .sof] ∧ d.field.hi = 18 ∧ d.field.lo = 6 ∧ d.fbits = 11) ∨
  (op ∈ [OpId.rda, .rmpa, .wra, .wrap] ∧ d.field.hi = 9 ∧ d.field.lo = 0 ∧ d.fbits = 8) ∨
  (op ∈ [OpId.exp, .sof] ∧ d.field.hi = 5 ∧ d.field.lo = 0 ∧ d.fbits = 5) ∨
  (op = .log ∧ d.field.hi = 5 ∧ d.field.lo = 0 ∧ d.fbits = 1) ∨
  (op = .choSof ∧ d.field.hi = 8 ∧ d.field.lo = 0 ∧ d.fbits = 8)

theorem Table.fracOf_descriptors (op : OpId) : ∀ d ∈ Table.descriptors op, d.kind = .frac → d.FracOf op := by
  unfold Descriptor.FracOf
  cases op <;> decide

theorem Table.fracOf_descriptorAt {op : OpId} {j : Nat} (h : (Table.descriptorAt op j).kind = .frac) :
    (Table.descriptorAt op j).FracOf op := by
  rcases Nat.lt_or_ge j (Table.descriptors op).length with hj | hj
  · rw [Table.descriptorAt, List.getD_eq_getElem _ _ hj] at h ⊢
    exact Table.fracOf_descriptors op _ (List.getElem_mem hj) h
  · rw [Table.descriptorAt, List.getD_eq_default _ _ hj] at h
    cases h

theorem Table.descriptorAt_zero_frac_iff (op : OpId) :
    (Table.descriptorAt op 0).kind = .frac ↔ op ∈ [OpId.rmpa, .log, .exp, .sof] := by
  cases op <;> decide

theorem Table.descriptorAt_one_frac_iff (op : OpId) : (Table.descriptorAt op 1).kind = .frac ↔
    op ∈ [OpId.rda, .wra, .wrap, .rdax, .rdfx, .wrax, .wrhx, .wrlx, .maxx, .log, .exp, .sof] := by
  cases op <;> decide

theorem Table.descriptorAt_two_frac_iff (op : OpId) : (Table.descriptorAt op 2).kind = .frac ↔ op = .choSof := by
  cases op <;> decide

end Sys2Proof

namespace Sys2Proof.Machine

/-- `fracRange_of_width_le` at a given width and bounds. -/
theorem fracRange_of_bounds_eq {w n : Nat} {least greatest : Rat} (m : Nat) (hw : w = 1 + m + n) (h : w ≤ 20)
    (hleast : least = -2 ^ m) (hgreatest : greatest = 2 ^ m - 1 / 2 ^ n) : FracRange w n least greatest := by
  subst hw hleast hgreatest
  exact fracRange_of_width_le h

theorem fracValue_of_width_le {w : Nat} (h : w ≤ 20) (f : Nat) (v : BitVec w) :
    fracValue f v = (v.toInt : Rat) / 2 ^ f :=
  fraction_frac _ _ v h

/-- The operand in a place of the record shows the table's descriptor for that place. -/
theorem operands_getD_descriptor (i : Instr) (j : Nat) :
    (i.operands.getD j .null).descriptor = Table.descriptorAt i.op j := by
  rw [Table.descriptorAt, ← i.operands_map_descriptor, List.getD_map]

theorem operands_getD_kind (i : Instr) (j : Nat) :
    (i.operands.getD j .null).kind = (Table.descriptorAt i.op j).kind :=
  congrArg Descriptor.kind (operands_getD_descriptor i j)

theorem operands_getD_fracOf {i : Instr} {j : Nat} (h : (i.operands.getD j .null).kind = .frac) :
    (i.operands.getD j .null).descriptor.FracOf i.op := by
  rw [operands_getD_kind] at h
  rw [operands_getD_descriptor]
  exact Table.fracOf_descriptorAt h

/-- Settles O14: the ranges by R9, the end fields by evaluation, the operands by their descriptors. -/
theorem coefficientFormats : Obligations.CoefficientFormats := by
  refine ⟨fracRange_of_bounds_eq 1 rfl (by decide) (by norm_num) (by norm_num),
    fracRange_of_bounds_eq 1 rfl (by decide) (by norm_num) (by norm_num),
    fracRange_of_bounds_eq 0 rfl (by decide) (by norm_num) (by norm_num),
    fracRange_of_bounds_eq 4 rfl (by decide) (by norm_num) (by norm_num),
    fracRange_of_bounds_eq 0 rfl (by decide) (by norm_num) (by norm_num),
    ?_, ?_, ?_, ?_, ?_, ?_, ?_, ?_, ?_, ?_, ?_, ?_, ?_, ?_, ?_, fun s => ?operands⟩
  case operands =>
    refine ⟨_, exec_eq_mkRecord _ s, ?_, ?_, ?_, fun o ho hfrac => ?_⟩
    · exact operands_getD_kind _ 0 ▸ Table.descriptorAt_zero_frac_iff _
    · exact operands_getD_kind _ 1 ▸ Table.descriptorAt_one_frac_iff _
    · exact operands_getD_kind _ 2 ▸ Table.descriptorAt_two_frac_iff _
    · simp only [List.mem_cons, List.not_mem_nil, or_false] at ho
      rcases ho with rfl | rfl | rfl <;> exact operands_getD_fracOf hfrac
  all_goals
    rw [fracValue_of_width_le (by decide)]
    norm_num [BitVec.toInt]

end Sys2Proof.Machine
end

section
/-! The decimal text of a fraction (30_encoding R81; 92_eei_decisions D22): long division by a power of two ends within
as many digits as there are fraction bits. -/

namespace Sys2Proof.Machine

section
variable {den : Nat}

@[simp] theorem fractionDigits_zero (fuel : Nat) : fractionDigits den fuel 0 = [] := by
  cases fuel <;> rfl

theorem fractionDigits_succ (fuel : Nat) {rem : Nat} (h : rem ≠ 0) :
    fractionDigits den (fuel + 1) rem = rem * 10 / den :: fractionDigits den fuel (rem * 10 % den) :=
  if_neg h

theorem fractionDigits_length_le (fuel rem : Nat) : (fractionDigits den fuel rem).length ≤ fuel := by
  induction fuel generalizing rem with
  | zero => rfl
  | succ fuel ih =>
    by_cases h : rem = 0
    · simp [h]
    · rw [fractionDigits_succ fuel h]
      exact Nat.succ_le_succ (ih _)

/-- Whether the division comes out even within the fuel, each digit passes on to the next remainder. -/
theorem dvd_next_remainder {fuel rem : Nat} (hdvd : den ∣ rem * 10 ^ (fuel + 1)) :
    den ∣ rem * 10 % den * 10 ^ fuel := by
  rw [pow_succ', ← mul_assoc] at hdvd
  exact ((Nat.mod_modEq (rem * 10) den).mul_right (10 ^ fuel)).dvd_iff dvd_rfl |>.mpr hdvd

variable {rem : Nat} (hrem : rem < den)
include hrem

theorem fractionDigits_le_nine (fuel : Nat) : ∀ d ∈ fractionDigits den fuel rem, d ≤ 9 := by
  induction fuel generalizing rem with
  | zero => simp [fractionDigits]
  | succ fuel ih =>
    by_cases h : rem = 0
    · simp [h]
    · have hlt : rem * 10 / den < 10 := Nat.div_lt_of_lt_mul (by omega)
      rw [fractionDigits_succ fuel h, List.forall_mem_cons]
      exact ⟨by omega, ih (Nat.mod_lt _ (by omega))⟩

variable {fuel : Nat} (hdvd : den ∣ rem * 10 ^ fuel)
include hdvd

/-- The digits make up `rem / den` exactly. -/
theorem digitsValue_fractionDigits : digitsValue (fractionDigits den fuel rem) = (rem : Rat) / den := by
  induction fuel generalizing rem with
  | zero =>
    have hzero : rem = 0 := Nat.eq_zero_of_dvd_of_lt (by simpa using hdvd) hrem
    simp [hzero, digitsValue]
  | succ fuel ih =>
    by_cases h : rem = 0
    · simp [h, digitsValue]
    · have hden : (den : Rat) ≠ 0 := by exact_mod_cast (by omega : den ≠ 0)
      have hdivision : (den : Rat) * (rem * 10 / den : Nat) + (rem * 10 % den : Nat) = rem * 10 := by
        exact_mod_cast Nat.div_add_mod (rem * 10) den
      rw [fractionDigits_succ fuel h, digitsValue, ih (Nat.mod_lt _ (by omega)) (dvd_next_remainder hdvd)]
      field_simp
      linarith

theorem fractionDigits_eq_nil_iff : fractionDigits den fuel rem = [] ↔ rem = 0 := by
  refine ⟨fun hnil => ?_, fun h => by simp [h]⟩
  have hvalue := digitsValue_fractionDigits hrem hdvd
  rw [hnil, digitsValue, eq_comm, div_eq_zero_iff] at hvalue
  rcases hvalue with h | h
  · exact_mod_cast h
  · exact absurd (Nat.cast_eq_zero.mp h) (by omega)

/-- The division ends with a digit that leaves no remainder, and that digit is not zero. -/
theorem fractionDigits_getLast?_ne_zero : (fractionDigits den fuel rem).getLast? ≠ some 0 := by
  induction fuel generalizing rem with
  | zero => simp [fractionDigits]
  | succ fuel ih =>
    by_cases h : rem = 0
    · simp [h]
    · have hnext := dvd_next_remainder hdvd
      have hlt : rem * 10 % den < den := Nat.mod_lt _ (by omega)
      rw [fractionDigits_succ fuel h]
      by_cases hlast : rem * 10 % den = 0
      · have hdigit : den * (rem * 10 / den) = rem * 10 := Nat.mul_div_cancel' (Nat.dvd_of_mod_eq_zero hlast)
        rw [hlast, fractionDigits_zero, List.getLast?_singleton]
        intro hzero
        rw [Option.some.inj hzero] at hdigit
        omega
      · have hcons : fractionDigits den fuel (rem * 10 % den) ≠ [] :=
          mt (fractionDigits_eq_nil_iff hlt hnext).mp hlast
        rw [List.getLast?_cons_of_ne_nil hcons]
        exact ih hlt hnext

end

/-- Settles O53: the remainder of the magnitude is below `2^fbits`, which divides `10^fbits`. -/
theorem fractionTextIsExact : Obligations.FractionTextIsExact := by
  intro num fbits
  have hrem : num.natAbs % 2 ^ fbits < 2 ^ fbits := Nat.mod_lt _ (by positivity)
  have hdvd : 2 ^ fbits ∣ num.natAbs % 2 ^ fbits * 10 ^ fbits :=
    Dvd.dvd.mul_left (pow_dvd_pow_of_dvd (by decide) fbits) _
  refine ⟨rfl, ?_, fractionDigits_length_le .., fractionDigits_le_nine hrem fbits,
    fractionDigits_getLast?_ne_zero hrem hdvd⟩
  have hmagnitude :
      (2 ^ fbits : Rat) * (num.natAbs / 2 ^ fbits : Nat) + (num.natAbs % 2 ^ fbits : Nat) = |(num : Rat)| := by
    rw [← Int.cast_abs, ← Nat.cast_natAbs]
    exact_mod_cast Nat.div_add_mod num.natAbs (2 ^ fbits)
  rw [digitsValue_fractionDigits hrem hdvd, ← hmagnitude]
  push_cast
  field_simp

end Sys2Proof.Machine
end

section
/-! The text of a line (30_encoding R79 to R86): what the label table answers for an address, and the columns that use
it. -/

namespace Sys2Proof.Machine

/-! ### The label table (R175) -/

/-- A record adds at most the label of its valid target; a label already in the table stays. -/
theorem lookup_addLabel (labels : List (Slot × String)) (r : Record) (a : Slot) :
    (addLabel labels r).lookup a = (labels.lookup a).or
      (if r.isSkip = true ∧ r.targetValid = true ∧ r.targetSlot = a then some (labelText a) else none) := by
  unfold addLabel
  split
  next hadd =>
    obtain ⟨hskip, hvalid, -⟩ := hadd
    rw [List.lookup_append]
    by_cases ha : r.targetSlot = a
    · subst ha
      simp [hskip, hvalid]
    · have hne : (a == r.targetSlot) = false := beq_eq_false_iff_ne.mpr (Ne.symm ha)
      simp [ha, List.lookup_cons, hne]
  next hkeep =>
    split
    next htarget =>
      obtain ⟨hskip, hvalid, rfl⟩ := htarget
      have hin : labels.lookup r.targetSlot ≠ none := fun hnone => hkeep ⟨hskip, hvalid, hnone⟩
      obtain ⟨label, hlabel⟩ := Option.ne_none_iff_exists'.mp hin
      rw [hlabel, Option.some_or]
    next => rw [Option.or_none]

theorem labelTable_append_singleton (records : List Record) (r : Record) :
    labelTable (records ++ [r]) = addLabel (labelTable records) r := by
  rw [labelTable, List.foldl_append]
  rfl

/-- The table has the label of an address exactly when a valid skip of the records names that address. -/
theorem lookup_labelTable (records : List Record) (a : Slot) :
    (labelTable records).lookup a = if ∃ r ∈ records, r.isSkip = true ∧ r.targetValid = true ∧
      r.targetSlot = a then some (labelText a) else none := by
  induction records using List.reverseRecOn with
  | nil => simp [labelTable]
  | append_singleton records r ih =>
    rw [labelTable_append_singleton, lookup_addLabel, ih]
    simp only [List.mem_append, List.mem_singleton, or_and_right, exists_or, exists_eq_left]
    by_cases hbefore : ∃ r ∈ records, r.isSkip = true ∧ r.targetValid = true ∧ r.targetSlot = a
    · rw [if_pos hbefore, if_pos (Or.inl hbefore), Option.some_or]
    · rw [if_neg hbefore, Option.none_or]
      simp only [hbefore, false_or]

/-- The label column in label mode (R84). -/
theorem labelPrefix_labelsFor_false (records : List Record) (a : Slot) :
    labelPrefix (labelsFor false records) a = if ∃ r ∈ records, r.isSkip = true ∧ r.targetValid = true ∧
      r.targetSlot = a then labelText a ++ ":" else "" := by
  rw [labelPrefix, show labelsFor false records = labelTable records from rfl, lookup_labelTable]
  by_cases h : ∃ r ∈ records, r.isSkip = true ∧ r.targetValid = true ∧ r.targetSlot = a
  · rw [if_pos h, if_pos h]
  · rw [if_neg h, if_neg h]

theorem exists_renderLine_eq (relative : Bool) (labels : List (Slot × String)) (r : Record) :
    ∃ rest, renderLine relative labels r = labelPrefix labels r.addr ++ "\t" ++ rest := by
  unfold renderLine
  simp only [String.append_assoc]
  exact ⟨_, rfl⟩

/-- Settles O50: the label column by `lookup_labelTable`; a line is its label column and the rest. -/
theorem labelsStandWhereReferenced : Obligations.LabelsStandWhereReferenced := by
  refine ⟨fun a => ⟨fun h => ?_, fun h => ?_⟩, fun records a => ⟨labelPrefix_labelsFor_false records a, rfl⟩,
    exists_renderLine_eq⟩
  · rw [labelText, if_pos h]
    rfl
  · rw [labelText, if_neg (Nat.not_lt.mpr h)]
    rfl

/-! ### The second operand of a skip (R83) -/

theorem operandTexts_of_skip {r : Record} (h : r.isSkip = true) (relative : Bool) (labels : List (Slot × String)) :
    operandTexts relative labels r = [r.opnd0.text, skipOperandText relative labels r] :=
  if_pos h

theorem skipOperandText_of_label {labels : List (Slot × String)} {r : Record} {label : String}
    (hvalid : r.targetValid = true) (hlabel : labels.lookup r.targetSlot = some label) :
    skipOperandText false labels r = label := by
  rw [skipOperandText, if_pos ⟨rfl, hvalid⟩, ← Record.targetSlot, hlabel]

theorem skipOperandText_of_offset {relative : Bool} {r : Record} (h : relative = true ∨ r.targetValid = false)
    (labels : List (Slot × String)) : skipOperandText relative labels r = r.opnd1.text := by
  refine if_neg fun ⟨hmode, hvalid⟩ => ?_
  rcases h with h | h
  · simp [h] at hmode
  · simp [h] at hvalid

/-- A signed operand is written in decimal (R81). -/
theorem text_sint (f : Field) {w : Nat} (h : w ≤ 20) (v : BitVec w) : (Operand.sint f v).text = toString v.toInt := by
  rw [Operand.text, Operand.display]
  simp only [Operand.sint, DisplayValue.text, BitVec.toInt_signExtend_of_le h]

/-- Settles O49: the label that pass 2 has put in the table, or the offset operand's own text. -/
theorem skipShowsLabelOrOffset : Obligations.SkipShowsLabelOrOffset := by
  refine ⟨fun records r hr hskip hvalid => ?_, fun s flags offset => ⟨_, exec_eq_mkRecord _ s, ?_⟩⟩
  · have hlabel := lookup_labelTable records r.targetSlot
    rw [if_pos ⟨r, hr, hskip, hvalid, rfl⟩] at hlabel
    exact skipOperandText_of_label hvalid hlabel
  · intro relative labels h
    rw [operandTexts_of_skip rfl, skipOperandText_of_offset h]
    exact congrArg (fun text => [_, text]) (text_sint Table.fpOffset (by decide) offset)

/-! ### The line of an unmatched word (R86, R153) -/

section
variable (word : Word) (addr : Slot) (suppressRaw : Bool)

theorem mnemonicText_raw : mnemonicText (mkRecord word addr suppressRaw .raw [] none).opOut =
    if suppressRaw = true then "nop" else "raw" := by
  cases suppressRaw <;> rfl

theorem operandTexts_raw (relative : Bool) (labels : List (Slot × String)) :
    operandTexts relative labels (mkRecord word addr suppressRaw .raw [] none) = [] := by
  cases suppressRaw <;> rfl

theorem commentText_raw :
    commentText (mkRecord word addr suppressRaw .raw [] none) = "0x" ++ hexDigits 8 word.toNat :=
  rfl

end

/-- Settles O52, column by column. -/
theorem rawLineShowsTheWord : Obligations.RawLineShowsTheWord := by
  intro s w relative labels
  refine ⟨_, exec_eq_mkRecord _ s, ?_⟩
  simp only [renderLine, Instr.op, Instr.operands, Instr.skipOffset, mnemonicText_raw, operandTexts_raw,
    commentText_raw]
  rw [String.intercalate_nil, String.append_empty]
  rfl

end Sys2Proof.Machine
end

section
/-! The records of the instructions, rule by rule (40_delay_ops to 45_raw_nop): the record of an instruction that is
neither RAW nor skip-class as the "Common to" paragraphs give it, and the texts the rules quote. -/

namespace Sys2Proof.Machine

/-- The "Common to" paragraphs of 40, 41, 42 and 44: an instruction that is neither RAW nor skip-class drives the
plain record of its operands. -/
theorem exec_eq_plainRecord {i : Instr} (s : State) (hraw : i.op ≠ .raw) (hskp : i.op ≠ .skp) :
    exec i s = .next (s.withOut (plainRecord s i.op i.operands.length
      (i.operands.getD 0 .null) (i.operands.getD 1 .null) (i.operands.getD 2 .null))) := by
  simp [exec_eq_mkRecord, State.withOut, mkRecord, plainRecord, isRawOp, suppressedOp, suppressedCount,
    Instr.skipOffset_eq_none hskp, hraw, i.op_ne_nop]

/-- The three ports of a worked example are given, so it is a fact about one record. -/
theorem example_of_blockRecord {word : Word} {addr : Slot} {text comment : String}
    (htext : recordText (blockRecord word addr false) = text)
    (hcomment : commentText (blockRecord word addr false) = comment) : Example word addr text comment := by
  rintro s rfl rfl hsuppress
  rw [← hsuppress] at htext hcomment
  exact ⟨_, exec_decode_eq_blockRecord s, htext, hcomment⟩

/-- Without labels, only a RAW record's text depends on a port other than `word`. -/
theorem recordText_blockRecord {word : Word} (hraw : (decode word).op ≠ .raw) (addr : Slot) (suppressRaw : Bool) :
    recordText (blockRecord word addr suppressRaw) = recordText (blockRecord word 0 false) := by
  have hlookup : lookupOp (word.setWidth 24) ≠ .raw := by rwa [lookupOp_eq_decode_op]
  simp [recordText, operandTexts, skipOperandText, Record.operands, blockRecord, hlookup]

theorem printsAs_of_blockRecord {word : Word} {text : String} (hraw : (decode word).op ≠ .raw)
    (htext : recordText (blockRecord word 0 false) = text) : PrintsAs word text := by
  rintro s rfl
  exact ⟨_, exec_decode_eq_blockRecord s, (recordText_blockRecord hraw _ _).trans htext⟩

end Sys2Proof.Machine
end

section
/-! The delay-memory instructions (40_delay_ops R100 to R103). -/

namespace Sys2Proof

section
variable {word : Word}

theorem decode_eq_rda (h : takeField Table.opcode 5 word = 0x00#5) :
    decode word = .rda (takeField Table.fdDaddr 9 word) (takeField Table.fdK 10 word) := by
  simp [decode, h]

theorem decode_eq_rmpa (h : takeField Table.opcode 5 word = 0x01#5) :
    decode word = .rmpa (takeField Table.fdK 10 word) := by
  simp [decode, h]

theorem decode_eq_wra (h : takeField Table.opcode 5 word = 0x02#5) :
    decode word = .wra (takeField Table.fdDaddr 9 word) (takeField Table.fdK 10 word) := by
  simp [decode, h]

theorem decode_eq_wrap (h : takeField Table.opcode 5 word = 0x03#5) :
    decode word = .wrap (takeField Table.fdDaddr 9 word) (takeField Table.fdK 10 word) := by
  simp [decode, h]

end

end Sys2Proof

namespace Sys2Proof.Machine

/-- S1.8, the delay coefficient (R65). -/
theorem fracRange_s1p8 : FracRange 10 8 (-2) 1.99609375 :=
  fracRange_of_bounds_eq 1 rfl (by decide) (by norm_num) (by norm_num)

/-- Settles O19: the words by the opcode field, the records as plain records of format FD, the texts by evaluation. -/
theorem rdaWraWrapRecords : Obligations.RdaWraWrapRecords := by
  refine ⟨fun _ => decode_eq_rda, fun _ => decode_eq_wra, fun _ => decode_eq_wrap, fun s daddr k => ?records,
    fracRange_s1p8, ?texts⟩
  case records =>
    exact ⟨exec_eq_plainRecord s nofun nofun, exec_eq_plainRecord s nofun nofun, exec_eq_plainRecord s nofun nofun⟩
  case texts =>
    refine ⟨printsAs_of_blockRecord ?_ ?_, printsAs_of_blockRecord ?_ ?_, printsAs_of_blockRecord ?_ ?_,
      printsAs_of_blockRecord ?_ ?_, printsAs_of_blockRecord ?_ ?_, example_of_blockRecord ?_ ?_,
      example_of_blockRecord ?_ ?_, example_of_blockRecord ?_ ?_⟩ <;> decide

/-- Settles O20, like O19; the two words of the rule agree on the bits that RMPA uses. -/
theorem rmpaRecord : Obligations.RmpaRecord :=
  ⟨fun _ => decode_eq_rmpa, fun s _ => exec_eq_plainRecord s nofun nofun,
    decode_eq_of_agree_on_usedBits (by decide), printsAs_of_blockRecord (by decide) (by decide),
    example_of_blockRecord (by decide) (by decide)⟩

end Sys2Proof.Machine
end

section
/-! The register instructions (41_register_ops R110 to R116). -/

namespace Sys2Proof

section
variable {word : Word}

theorem decode_eq_rdax (h : takeField Table.opcode 5 word = 0x04#5) :
    decode word = .rdax (takeField Table.frReg 6 word) (takeField Table.frK 13 word) := by
  simp [decode, h]

theorem decode_eq_rdfx (h : takeField Table.opcode 5 word = 0x05#5) :
    decode word = .rdfx (takeField Table.frReg 6 word) (takeField Table.frK 13 word) := by
  simp [decode, h]

theorem decode_eq_wrax (h : takeField Table.opcode 5 word = 0x06#5) :
    decode word = .wrax (takeField Table.frReg 6 word) (takeField Table.frK 13 word) := by
  simp [decode, h]

theorem decode_eq_wrhx (h : takeField Table.opcode 5 word = 0x07#5) :
    decode word = .wrhx (takeField Table.frReg 6 word) (takeField Table.frK 13 word) := by
  simp [decode, h]

theorem decode_eq_wrlx (h : takeField Table.opcode 5 word = 0x08#5) :
    decode word = .wrlx (takeField Table.frReg 6 word) (takeField Table.frK 13 word) := by
  simp [decode, h]

theorem decode_eq_maxx (h : takeField Table.opcode 5 word = 0x09#5) :
    decode word = .maxx (takeField Table.frReg 6 word) (takeField Table.frK 13 word) := by
  simp [decode, h]

theorem decode_eq_mulx (h : takeField Table.opcode 5 word = 0x0A#5) :
    decode word = .mulx (takeField Table.frReg 6 word) := by
  simp [decode, h]

end

end Sys2Proof

namespace Sys2Proof.Machine

/-- S1.11, the multiply coefficient (R65). -/
theorem fracRange_s1p11 : FracRange 13 11 (-2) 1.99951171875 :=
  fracRange_of_bounds_eq 1 rfl (by decide) (by norm_num) (by norm_num)

/-- Settles O21: the words by the opcode field, the records as plain records of format FR, whose register operand
carries what REGS says of the value, the texts by evaluation. -/
theorem registerCoefficientRecords : Obligations.RegisterCoefficientRecords := by
  refine ⟨fun _ => ⟨decode_eq_rdax, decode_eq_rdfx, decode_eq_wrax, decode_eq_wrhx, decode_eq_wrlx, decode_eq_maxx⟩,
    fun s r k => ?records, fracRange_s1p11, (regName_eq_none_iff _).mpr (.inr (.inl rfl)), ?texts⟩
  case records =>
    refine ⟨?_, ?_, ?_, ?_, ?_, ?_⟩ <;> exact exec_eq_plainRecord s nofun nofun
  case texts =>
    refine ⟨printsAs_of_blockRecord ?_ ?_, printsAs_of_blockRecord ?_ ?_, printsAs_of_blockRecord ?_ ?_,
      printsAs_of_blockRecord ?_ ?_, printsAs_of_blockRecord ?_ ?_, example_of_blockRecord ?_ ?_,
      example_of_blockRecord ?_ ?_, example_of_blockRecord ?_ ?_, example_of_blockRecord ?_ ?_,
      example_of_blockRecord ?_ ?_, example_of_blockRecord ?_ ?_⟩ <;> decide

/-- Settles O22, like O21; the two words of the rule agree on the bits that MULX uses. -/
theorem mulxRecord : Obligations.MulxRecord :=
  ⟨fun _ => decode_eq_mulx, fun s _ => exec_eq_plainRecord s nofun nofun,
    decode_eq_of_agree_on_usedBits (by decide), (regName_eq_none_iff _).mpr (.inl (by decide)),
    printsAs_of_blockRecord (by decide) (by decide), example_of_blockRecord (by decide) (by decide)⟩

end Sys2Proof.Machine
end

section
/-! The accumulator instructions (42_accumulator_ops R120 to R125). -/

namespace Sys2Proof

section
variable {word : Word}

theorem decode_eq_log (h : takeField Table.opcode 5 word = 0x0B#5) :
    decode word = .log (takeField Table.fsK 13 word) (takeField Table.fsD 6 word) := by
  simp [decode, h]

theorem decode_eq_exp (h : takeField Table.opcode 5 word = 0x0C#5) :
    decode word = .exp (takeField Table.fsK 13 word) (takeField Table.fsD 6 word) := by
  simp [decode, h]

theorem decode_eq_sof (h : takeField Table.opcode 5 word = 0x0D#5) :
    decode word = .sof (takeField Table.fsK 13 word) (takeField Table.fsD 6 word) := by
  simp [decode, h]

theorem decode_eq_and (h : takeField Table.opcode 5 word = 0x0E#5) :
    decode word = .and (takeField Table.flMask 19 word) := by
  simp [decode, h]

theorem decode_eq_or (h : takeField Table.opcode 5 word = 0x0F#5) :
    decode word = .or (takeField Table.flMask 19 word) := by
  simp [decode, h]

theorem decode_eq_xor (h : takeField Table.opcode 5 word = 0x10#5) :
    decode word = .xor (takeField Table.flMask 19 word) := by
  simp [decode, h]

end

end Sys2Proof

namespace Sys2Proof.Machine

/-- S4.1, the offset of LOG (R65). -/
theorem fracRange_s4p1 : FracRange 6 1 (-16) 15.5 :=
  fracRange_of_bounds_eq 4 rfl (by decide) (by norm_num) (by norm_num)

/-- S.5, the offset of EXP and SOF (R65). -/
theorem fracRange_s0p5 : FracRange 6 5 (-1) 0.96875 :=
  fracRange_of_bounds_eq 0 rfl (by decide) (by norm_num) (by norm_num)

/-- The mask of format FL fills the whole `field` of its operand (R69). -/
theorem uint_flMask (mask : BitVec 19) :
    Operand.uint Table.flMask mask = ⟨.uint, 18, 0, mask, mask.setWidth 20, 0, .none, true⟩ := by
  simp [Operand.uint, Table.flMask]

/-- Settles O23: the words by the opcode field, the records as plain records of format FS, whose second operand has
the fraction bits of the entry's offset format, the texts by evaluation. -/
theorem scaleOffsetRecords : Obligations.ScaleOffsetRecords := by
  refine ⟨fun _ => ⟨decode_eq_log, decode_eq_exp, decode_eq_sof⟩, fun s k d => ?records,
    fracRange_s1p11, fracRange_s4p1, fracRange_s0p5, ?texts⟩
  case records =>
    exact ⟨exec_eq_plainRecord s nofun nofun, exec_eq_plainRecord s nofun nofun, exec_eq_plainRecord s nofun nofun⟩
  case texts =>
    refine ⟨printsAs_of_blockRecord ?_ ?_, printsAs_of_blockRecord ?_ ?_, printsAs_of_blockRecord ?_ ?_,
      printsAs_of_blockRecord ?_ ?_, example_of_blockRecord ?_ ?_, example_of_blockRecord ?_ ?_,
      example_of_blockRecord ?_ ?_⟩ <;> decide

/-- Settles O24, like O23; the records are plain records of format FL, whose one operand is the whole mask. -/
theorem maskRecords : Obligations.MaskRecords := by
  refine ⟨fun _ => ⟨decode_eq_and, decode_eq_or, decode_eq_xor⟩, fun s mask => ?records, ?texts⟩
  case records =>
    simp only [← uint_flMask]
    exact ⟨exec_eq_plainRecord s nofun nofun, exec_eq_plainRecord s nofun nofun, exec_eq_plainRecord s nofun nofun⟩
  case texts =>
    refine ⟨printsAs_of_blockRecord ?_ ?_, printsAs_of_blockRecord ?_ ?_, example_of_blockRecord ?_ ?_,
      example_of_blockRecord ?_ ?_, example_of_blockRecord ?_ ?_⟩ <;> decide

end Sys2Proof.Machine
end

section
/-! The skip instruction (43_skip R130 to R136): the record it drives, when its target is valid in terms of the slot
and the offset, and what the host makes of a record with an invalid target. -/

namespace Sys2Proof

theorem decode_eq_skp {word : Word} (h : takeField Table.opcode 5 word = 0x11#5) :
    decode word = .skp (takeField Table.fpFlags 5 word) (takeField Table.fpOffset 8 word) := by
  simp [decode, h]

end Sys2Proof

namespace Sys2Proof.Machine

/-! ### The record of a skip -/

/-- The record that a skip with these flags and this offset drives. -/
def recordOfSkip (s : State) (flags : BitVec 5) (offset : BitVec 8) : Record :=
  mkRecord s.word s.addr s.suppressRaw .skp (Instr.skp flags offset).operands (some offset)

section
variable (s : State) (flags : BitVec 5) (offset : BitVec 8)

theorem exec_skp : exec (.skp flags offset) s = .next (s.withOut (recordOfSkip s flags offset)) :=
  exec_eq_mkRecord _ s

@[simp] theorem recordOfSkip_target_toInt :
    (recordOfSkip s flags offset).target.toInt = (s.addr.toNat : Int) + 1 + offset.toInt :=
  toInt_skipTarget s.addr offset

theorem recordOfSkip_target_eq_ofInt :
    (recordOfSkip s flags offset).target = BitVec.ofInt 9 ((s.addr.toNat : Int) + 1 + offset.toInt) := by
  rw [← recordOfSkip_target_toInt s flags offset, BitVec.ofInt_toInt]

theorem recordOfSkip_offset_toInt : (recordOfSkip s flags offset).opnd1.num.toInt = offset.toInt :=
  BitVec.toInt_signExtend_of_le (by decide)

theorem recordOfSkip_offset_text : (recordOfSkip s flags offset).opnd1.text = toString offset.toInt :=
  text_sint Table.fpOffset (by decide) offset

theorem recordOfSkip_targetValid_iff : (recordOfSkip s flags offset).targetValid = true ↔
    0 ≤ (recordOfSkip s flags offset).target.toInt ∧ (recordOfSkip s flags offset).target.toInt ≤ 127 :=
  targetInRange_iff _

theorem recordOfSkip_targetValid_eq_decide : (recordOfSkip s flags offset).targetValid = decide
    (0 ≤ (s.addr.toNat : Int) + 1 + offset.toInt ∧ (s.addr.toNat : Int) + 1 + offset.toInt ≤ 127) := by
  rw [Bool.eq_iff_iff, recordOfSkip_targetValid_iff, recordOfSkip_target_toInt, decide_eq_true_eq]

/-- The range check in terms of the inputs (R132). -/
theorem recordOfSkip_targetValid_eq_false_iff : (recordOfSkip s flags offset).targetValid = false ↔
    126 - (s.addr.toNat : Int) < offset.toInt ∨ offset.toInt < -1 - (s.addr.toNat : Int) := by
  rw [← Bool.not_eq_true, recordOfSkip_targetValid_iff, recordOfSkip_target_toInt]
  omega

end

/-- Settles O33: the exact sum of `toInt_skipTarget`, whose bounds are those of a slot and of an 8-bit offset. -/
theorem skipTargetIsExact : Obligations.SkipTargetIsExact := by
  intro s flags offset
  have hslot : s.addr.toNat ≤ 127 := Nat.le_of_lt_succ s.addr.isLt
  have hleast : -128 ≤ offset.toInt := offset.le_toInt
  have hgreatest : offset.toInt ≤ 127 := offset.toInt_le
  refine ⟨_, exec_skp s flags offset, recordOfSkip_target_toInt s flags offset, ?_⟩
  simp only [State.withOut, recordOfSkip_target_toInt]
  refine ⟨?_, ?_, fun _ => ?_, fun _ => ?_, fun _ => ?_⟩ <;> omega

/-- Settles O34: the range check on the target and on the inputs, and the exact sum. -/
theorem skipTargetIsValidated : Obligations.SkipTargetIsValidated := fun s flags offset =>
  ⟨_, exec_skp s flags offset, recordOfSkip_targetValid_iff s flags offset,
    recordOfSkip_targetValid_eq_false_iff s flags offset, recordOfSkip_target_toInt s flags offset⟩

/-! ### Slots that a skip reaches (R136) -/

/-- The distance from the slot after the skip to any slot fits the 8-bit offset. -/
theorem exists_offset_to_slot (a b : Slot) : ∃ offset : BitVec 8, (a.toNat : Int) + 1 + offset.toInt = b.toNat := by
  have ha : a.toNat ≤ 127 := Nat.le_of_lt_succ a.isLt
  have hb : b.toNat ≤ 127 := Nat.le_of_lt_succ b.isLt
  have hfits : (BitVec.ofInt 8 ((b.toNat : Int) - a.toNat - 1)).toInt = (b.toNat : Int) - a.toNat - 1 :=
    BitVec.toInt_ofInt_eq_self (by decide) (by omega) (by omega)
  exact ⟨_, by rw [hfits]; omega⟩

/-- Settles O36: the offset to the slot named; the greatest offset, which leaves the program from every slot; the
range check on the inputs at the first and at the last slot. -/
theorem everySlotReachesEverySlot : Obligations.EverySlotReachesEverySlot := by
  refine ⟨fun s flags b => ?_, fun s flags => ?_, fun s flags offset => ?_⟩
  · obtain ⟨offset, hoffset⟩ := exists_offset_to_slot s.addr b
    have htarget : (recordOfSkip s flags offset).target.toInt = b.toNat :=
      (recordOfSkip_target_toInt s flags offset).trans hoffset
    have hb : b.toNat ≤ 127 := Nat.le_of_lt_succ b.isLt
    refine ⟨offset, _, exec_skp s flags offset, (recordOfSkip_targetValid_iff s flags offset).mpr (by omega), htarget,
      fun haddr hnamed => ?_, fun haddr hnamed => ?_⟩
    · have hfirst : s.addr.toNat = 0 := congrArg BitVec.toNat haddr
      have hlast : b.toNat = 127 := congrArg BitVec.toNat hnamed
      omega
    · have hlast : s.addr.toNat = 127 := congrArg BitVec.toNat haddr
      have hfirst : b.toNat = 0 := congrArg BitVec.toNat hnamed
      omega
  · refine ⟨127#8, _, exec_skp s flags 127#8, (recordOfSkip_targetValid_eq_false_iff s flags _).mpr (.inl ?_)⟩
    have hoffset : (127#8).toInt = 127 := rfl
    omega
  · have hleast : -128 ≤ offset.toInt := offset.le_toInt
    have hgreatest : offset.toInt ≤ 127 := offset.toInt_le
    refine ⟨_, exec_skp s flags offset, fun haddr => (recordOfSkip_targetValid_eq_false_iff s flags offset).trans ?_,
      fun haddr => (recordOfSkip_targetValid_eq_false_iff s flags offset).trans ?_⟩
    · have hfirst : s.addr.toNat = 0 := congrArg BitVec.toNat haddr
      omega
    · have hlast : s.addr.toNat = 127 := congrArg BitVec.toNat haddr
      omega

/-! ### An invalid target (R134) -/

section
variable {r : Record} (h : r.targetValid = false)
include h

theorem addLabel_of_invalid_target (labels : List (Slot × String)) : addLabel labels r = labels :=
  if_neg fun ⟨_, hvalid, _⟩ => by simp [h] at hvalid

theorem warning_of_invalid_target (hskip : r.isSkip = true) :
    r.warning = some ⟨r.addr, r.opnd1.num, r.target⟩ :=
  if_pos ⟨hskip, h⟩

end

/-- Warnings that are not escalated do not make a run fail (R177). -/
theorem runResult_false (records : List Record) : runResult false records = .succeeded :=
  if_neg fun ⟨hescalate, _⟩ => Bool.false_ne_true hescalate

/-- Settles O35: the record of any skip, with the range check failed; the host takes the offset's own text, adds no
label, and raises one warning, which fails no run by itself. -/
theorem invalidTargetIsNotFatal : Obligations.InvalidTargetIsNotFatal := by
  intro s flags offset hrange
  have hinvalid := (recordOfSkip_targetValid_eq_false_iff s flags offset).mpr hrange
  exact ⟨_, exec_skp s flags offset, rfl, rfl, rfl, recordOfSkip_offset_toInt s flags offset, hinvalid,
    fun _ labels => (skipOperandText_of_offset (.inr hinvalid) labels).trans (recordOfSkip_offset_text s flags offset),
    addLabel_of_invalid_target hinvalid,
    ⟨_, warning_of_invalid_target hinvalid rfl, rfl, recordOfSkip_offset_toInt s flags offset,
      recordOfSkip_target_toInt s flags offset⟩,
    runResult_false⟩

/-! ### The words, the record and the texts of R130 -/

/-- Settles O25: the words by the opcode field, the record with its target as the integer sum, the texts by
evaluation; the two words of the rule agree on the bits that SKP uses. -/
theorem skpRecord : Obligations.SkpRecord := by
  refine ⟨fun _ => decode_eq_skp, fun s flags offset => ?record, printsAs_of_blockRecord (by decide) (by decide),
    printsAs_of_blockRecord (by decide) (by decide), decode_eq_of_agree_on_usedBits (by decide),
    example_of_blockRecord (by decide) (by decide), fun s hword haddr => ?label⟩
  case record =>
    rw [exec_skp, ← recordOfSkip_target_eq_ofInt s flags offset,
      ← recordOfSkip_targetValid_eq_decide s flags offset]
    rfl
  case label =>
    have htexts : ∀ suppressRaw, operandTexts false (addLabel [] (blockRecord 0x008C0080 0 suppressRaw))
        (blockRecord 0x008C0080 0 suppressRaw) = ["RUN", "addr03"] := by decide
    have hexec := exec_decode_eq_blockRecord s
    rw [hword, haddr] at hexec
    exact ⟨_, hexec, rfl, rfl, htexts s.suppressRaw⟩

end Sys2Proof.Machine
end

section
/-! The LFO instructions (44_lfo_ops R140 to R146): those that share an opcode are told apart by selecting bits. -/

namespace Sys2Proof

section
variable {word : Word}

/-- R140: the bits below the opcode that select an operation, read together with it. -/
theorem opcode_and_select_of_extract (f : Field) {w : Nat} {opcode : BitVec 5} {select : BitVec w}
    (hplace : f.lo + w = 19) (h : word.extractLsb' f.lo (5 + w) = opcode ++ select) :
    takeField Table.opcode 5 word = opcode ∧ takeField f w word = select := by
  have hcat : takeField Table.opcode 5 word ++ takeField f w word = opcode ++ select :=
    (BitVec.extractLsb'_append_extractLsb'_eq_extractLsb' hplace.symm).trans h
  constructor
  · simpa only [BitVec.extractLsb'_append_eq_left] using congrArg (BitVec.extractLsb' w 5) hcat
  · simpa only [BitVec.extractLsb'_append_eq_right] using congrArg (BitVec.extractLsb' 0 w) hcat

theorem decode_eq_decodeWld (h : takeField Table.opcode 5 word = 0x12#5) : decode word = decodeWld word := by
  simp [decode, h]

theorem decode_eq_decodeCho (h : takeField Table.opcode 5 word = 0x14#5) : decode word = decodeCho word := by
  simp [decode, h]

theorem decode_eq_wlds (h : word.extractLsb' 18 6 = 0b100100#6) : decode word =
    .wlds (takeField Table.fwN 1 word) (takeField Table.fwsF 9 word) (takeField Table.fwsA 8 word) := by
  obtain ⟨hop, hselect⟩ := opcode_and_select_of_extract Table.lfoSelect (opcode := 0x12) (select := 0#1) rfl h
  simp [decode_eq_decodeWld hop, decodeWld, hselect]

theorem decode_eq_wldr (h : word.extractLsb' 18 6 = 0b100101#6) : decode word =
    .wldr (takeField Table.fwN 1 word) (takeField Table.fwrF 15 word) (takeField Table.fwrA 2 word) := by
  obtain ⟨hop, hselect⟩ := opcode_and_select_of_extract Table.lfoSelect (opcode := 0x12) (select := 1#1) rfl h
  simp [decode_eq_decodeWld hop, decodeWld, hselect]

theorem decode_eq_jam (h : takeField Table.opcode 5 word = 0x13#5) :
    decode word = .jam (takeField Table.fjN 1 word) := by
  simp [decode, h]

theorem decode_eq_choRda (h : word.extractLsb' 17 7 = 0b1010000#7) : decode word =
    .choRda (takeField Table.choN 2 word) (takeField Table.choFlags 6 word) (takeField Table.choLow 9 word) := by
  obtain ⟨hop, hselect⟩ := opcode_and_select_of_extract Table.choMode (opcode := 0x14) (select := 0b00#2) rfl h
  simp [decode_eq_decodeCho hop, decodeCho, hselect]

theorem decode_eq_choSof (h : word.extractLsb' 17 7 = 0b1010010#7) : decode word =
    .choSof (takeField Table.choN 2 word) (takeField Table.choFlags 6 word) (takeField Table.choLow 9 word) := by
  obtain ⟨hop, hselect⟩ := opcode_and_select_of_extract Table.choMode (opcode := 0x14) (select := 0b10#2) rfl h
  simp [decode_eq_decodeCho hop, decodeCho, hselect]

theorem decode_eq_choRdal (h : word.extractLsb' 17 7 = 0b1010011#7) :
    decode word = .choRdal (takeField Table.choN 2 word) := by
  obtain ⟨hop, hselect⟩ := opcode_and_select_of_extract Table.choMode (opcode := 0x14) (select := 0b11#2) rfl h
  simp [decode_eq_decodeCho hop, decodeCho, hselect]

end

end Sys2Proof

namespace Sys2Proof.Machine

/-- S.8, the offset of CHO SOF (R65). -/
theorem fracRange_s0p8 : FracRange 9 8 (-1) 0.99609375 :=
  fracRange_of_bounds_eq 0 rfl (by decide) (by norm_num) (by norm_num)

/-- Settles O26: the words by the opcode and its selecting bit, the record as the plain record of format FWS, the
texts by evaluation. -/
theorem wldsRecord : Obligations.WldsRecord :=
  ⟨fun _ => decode_eq_wlds, fun s _ _ _ => exec_eq_plainRecord s nofun nofun,
    printsAs_of_blockRecord (by decide) (by decide), example_of_blockRecord (by decide) (by decide)⟩

/-- Settles O27, like O26; format FWR holds the amplitude as a code, which only its text turns into the name. -/
theorem wldrRecord : Obligations.WldrRecord :=
  ⟨fun _ => decode_eq_wldr, fun s _ _ _ => exec_eq_plainRecord s nofun nofun,
    printsAs_of_blockRecord (by decide) (by decide), printsAs_of_blockRecord (by decide) (by decide),
    example_of_blockRecord (by decide) (by decide)⟩

/-- Settles O28: the words by the opcode alone; the two words of the rule agree on the bits that JAM uses. -/
theorem jamRecord : Obligations.JamRecord :=
  ⟨fun _ => decode_eq_jam, fun s _ => exec_eq_plainRecord s nofun nofun,
    decode_eq_of_agree_on_usedBits (by decide), printsAs_of_blockRecord (by decide) (by decide),
    example_of_blockRecord (by decide) (by decide)⟩

/-- Settles O29: the words by the opcode and the two selecting bits of CHO, the record as the plain record of format
FCA, the texts by evaluation. -/
theorem choRdaRecord : Obligations.ChoRdaRecord :=
  ⟨fun _ => decode_eq_choRda, fun s _ _ _ => exec_eq_plainRecord s nofun nofun,
    printsAs_of_blockRecord (by decide) (by decide), printsAs_of_blockRecord (by decide) (by decide),
    example_of_blockRecord (by decide) (by decide)⟩

/-- Settles O30, like O29, with the range of the offset that format FCS holds in place of the delay address. -/
theorem choSofRecord : Obligations.ChoSofRecord :=
  ⟨fun _ => decode_eq_choSof, fun s _ _ _ => exec_eq_plainRecord s nofun nofun, fracRange_s0p8,
    printsAs_of_blockRecord (by decide) (by decide), example_of_blockRecord (by decide) (by decide)⟩

/-- Settles O31, like O29; the two words of the rule agree on the bits that CHO RDAL uses. -/
theorem choRdalRecord : Obligations.ChoRdalRecord :=
  ⟨fun _ => decode_eq_choRdal, fun s _ => exec_eq_plainRecord s nofun nofun,
    decode_eq_of_agree_on_usedBits (by decide), printsAs_of_blockRecord (by decide) (by decide),
    example_of_blockRecord (by decide) (by decide)⟩

end Sys2Proof.Machine
end

section
/-! RAW and NOP (45_raw_nop R150, R152): the RAW set as match and mask pairs, the record of an unmatched word, and what
raw suppression does to a record. -/

namespace Sys2Proof

/-- A word matches a field's value under the field's mask exactly when the field has that value. -/
theorem and_fieldMask_eq_placeField_iff (f : Field) {w : Nat} (h : f.lo + w ≤ 32) (word : Word) (v : BitVec w) :
    word &&& fieldMask f w = placeField f v ↔ takeField f w word = v := by
  rw [← placeField_takeField]
  constructor
  · intro hplaced
    rw [← takeField_placeField_same f (takeField f w word) h, hplaced, takeField_placeField_same f v h]
  · exact congrArg (placeField f)

/-- The opcodes without an entry: 0x15, the two from 0x16 on, and the eight from 0x18 on, by their leading bits. -/
theorem opcode_unassigned_iff (word : Word) : 0x15 ≤ (word.extractLsb' 19 5).toNat ↔
    word.extractLsb' 19 5 = 0x15#5 ∨ word.extractLsb' 20 4 = 0b1011#4 ∨ word.extractLsb' 22 2 = 0b11#2 := by
  simp only [← BitVec.toNat_inj, BitVec.extractLsb'_toNat, BitVec.toNat_ofNat, Nat.shiftRight_eq_div_pow]
  omega

/-- The RAW set as the four match and mask pairs of R150. -/
theorem unmatched_iff_masks (word : Word) : unmatched word = true ↔
    word &&& 0x00F80000 = 0x00A80000 ∨ word &&& 0x00F00000 = 0x00B00000 ∨ word &&& 0x00C00000 = 0x00C00000 ∨
      word &&& 0x00FE0000 = 0x00A20000 := by
  have hopcode : word &&& 0x00F80000 = 0x00A80000 ↔ word.extractLsb' 19 5 = 0x15#5 :=
    and_fieldMask_eq_placeField_iff ⟨23, 19⟩ (by decide) word 0x15#5
  have hfour : word &&& 0x00F00000 = 0x00B00000 ↔ word.extractLsb' 20 4 = 0b1011#4 :=
    and_fieldMask_eq_placeField_iff ⟨23, 20⟩ (by decide) word 0b1011#4
  have htwo : word &&& 0x00C00000 = 0x00C00000 ↔ word.extractLsb' 22 2 = 0b11#2 :=
    and_fieldMask_eq_placeField_iff ⟨23, 22⟩ (by decide) word 0b11#2
  have hseven : word &&& 0x00FE0000 = 0x00A20000 ↔ word.extractLsb' 17 7 = 0b1010001#7 :=
    and_fieldMask_eq_placeField_iff ⟨23, 17⟩ (by decide) word 0b1010001#7
  rw [Machine.unmatched_iff_extract, opcode_unassigned_iff, hopcode, hfour, htwo, hseven, or_assoc, or_assoc]

end Sys2Proof

namespace Sys2Proof.Machine

/-! ### The record of an unmatched word (R150) -/

theorem suppressedOp_raw (suppressRaw : Bool) :
    suppressedOp .raw suppressRaw = if suppressRaw = true then .nop else .raw := by
  simp only [suppressedOp, true_and]

@[simp] theorem suppressedCount_zero (opOut : OpId) : suppressedCount opOut 0 = 0 :=
  ite_self 0

theorem recordText_raw (word : Word) (addr : Slot) (suppressRaw : Bool) :
    recordText (mkRecord word addr suppressRaw .raw [] none) = if suppressRaw = true then "nop" else "raw" := by
  rw [recordText, operandTexts_raw]
  exact mnemonicText_raw word addr suppressRaw

/-- Settles O32: the words by the RAW set, the pairs by the fields under their masks, the record without operands, the
texts by evaluation. -/
theorem rawRecord : Obligations.RawRecord := by
  refine ⟨fun w h => decode_of_unmatched ((unmatched_iff_extract w).mpr h),
    fun w => (unmatched_iff_extract w).symm.trans (unmatched_iff_masks w), fun s w => ?record,
    decode_of_unmatched (by decide), by decide, decode_of_unmatched (by decide),
    example_of_blockRecord (by decide) (by decide)⟩
  case record =>
    rw [exec_eq_mkRecord, ← suppressedOp_raw]
    simp only [Instr.op, Instr.operands, Instr.skipOffset, mkRecord, List.length_nil, suppressedCount_zero]
    rfl

/-! ### Raw suppression (R152) -/

@[simp] theorem suppressedOp_false (op : OpId) : suppressedOp op false = op :=
  if_neg fun h => Bool.false_ne_true h.2

theorem suppressedCount_of_ne_nop {opOut : OpId} (h : opOut ≠ .nop) (nopnd : Nat) :
    suppressedCount opOut nopnd = nopnd :=
  if_neg h

/-- The last stage of R62: with suppression, a RAW record has NOP and no operands on its last two outputs, and is
otherwise as without; every other record is the same. -/
theorem mkRecord_suppressed (word : Word) (addr : Slot) (op : OpId) (opnds : List Operand)
    (offset : Option (BitVec 8)) : mkRecord word addr true op opnds offset =
      if op = .raw then { mkRecord word addr false op opnds offset with opOut := .nop, nopndOut := 0 }
      else mkRecord word addr false op opnds offset := by
  split
  next hraw =>
    subst hraw
    rfl
  next hother =>
    have hkept : suppressedOp op true = suppressedOp op false := by simp [suppressedOp, hother]
    simp only [mkRecord, hkept]

/-- Settles O17: `mkRecord` with and without suppression, and the example's RAW record. -/
theorem nopStandsInForRaw : Obligations.NopStandsInForRaw := by
  refine ⟨fun i s => ⟨_, _, exec_eq_mkRecord i _, exec_eq_mkRecord i _, i.op_ne_nop, suppressedOp_false _, ?count,
    mkRecord_suppressed ..⟩, fun s hword hsuppress => ?rawWord⟩
  case count =>
    exact suppressedCount_of_ne_nop ((suppressedOp_false i.op).trans_ne i.op_ne_nop) _
  case rawWord =>
    have hexec := exec_eq_mkRecord (.raw 0x00A80000) s
    rw [hword, hsuppress] at hexec
    rw [decode_of_unmatched (by decide)]
    exact ⟨_, hexec, rfl, rfl, rfl, rfl, recordText_raw _ _ true,
      (commentText_raw 0x00A80000 s.addr true).trans (by decide)⟩

end Sys2Proof.Machine
end

section
/-! The conditions E1, E2, E3 and where each is reported (60_exceptions R161, R165): E1 and E2 on the record an
instruction drives, E3 by the move that obtains the program (20_memory R48). -/

namespace Sys2Proof

theorem Instr.op_eq_skp_iff (i : Instr) : i.op = .skp ↔ ∃ flags offset, i = .skp flags offset := by
  constructor
  · intro h
    cases i with
    | skp flags offset => exact ⟨flags, offset, rfl⟩
    | _ => cases h
  · rintro ⟨flags, offset, rfl⟩
    rfl

end Sys2Proof

namespace Sys2Proof.Machine

/-! ### E1 and E2 on the record -/

section
variable (word : Word) (addr : Slot) (suppressRaw : Bool)

theorem mkRecord_isRaw_iff (i : Instr) :
    (mkRecord word addr suppressRaw i.op i.operands i.skipOffset).isRaw = true ↔ i.op = .raw :=
  beq_iff_eq

theorem mkRecord_isSkip_iff (i : Instr) :
    (mkRecord word addr suppressRaw i.op i.operands i.skipOffset).isSkip = true ↔ i.op = .skp := by
  show i.skipOffset.isSome = true ↔ i.op = .skp
  rw [i.skipOffset_isSome, beq_iff_eq]

end

/-- E2 is reported by the skips whose exact sum leaves the program, and by no other instruction. -/
theorem mkRecord_invalidTarget_iff (i : Instr) (s : State) :
    (mkRecord s.word s.addr s.suppressRaw i.op i.operands i.skipOffset).isSkip = true ∧
      (mkRecord s.word s.addr s.suppressRaw i.op i.operands i.skipOffset).targetValid = false ↔
    ∃ flags offset, i = .skp flags offset ∧
      ((s.addr.toNat : Int) + 1 + offset.toInt < 0 ∨ 127 < (s.addr.toNat : Int) + 1 + offset.toInt) := by
  have hrange (flags : BitVec 5) (offset : BitVec 8) : (recordOfSkip s flags offset).targetValid = false ↔
      (s.addr.toNat : Int) + 1 + offset.toInt < 0 ∨ 127 < (s.addr.toNat : Int) + 1 + offset.toInt := by
    rw [recordOfSkip_targetValid_eq_false_iff]
    omega
  rw [mkRecord_isSkip_iff, i.op_eq_skp_iff]
  constructor
  · rintro ⟨⟨flags, offset, rfl⟩, hinvalid⟩
    exact ⟨flags, offset, rfl, (hrange flags offset).mp hinvalid⟩
  · rintro ⟨flags, offset, rfl, hout⟩
    exact ⟨⟨flags, offset, rfl⟩, (hrange flags offset).mpr hout⟩

/-- Settles O16: `is_raw` stands for RAW and `is_skip` for SKP, which one operation cannot both be. -/
theorem conditionsAreExclusive : Obligations.ConditionsAreExclusive := by
  intro i s
  have hexclusive : i.op = .raw → ¬i.op = .skp := fun hraw hskp => by simp [hraw] at hskp
  refine ⟨_, exec_eq_mkRecord i s, (mkRecord_isRaw_iff _ _ _ i).mp, fun hraw => ?_, ?_⟩
  · rw [← Bool.not_eq_true]
    exact (mkRecord_isSkip_iff _ _ _ i).not.mpr (hexclusive hraw)
  · rintro ⟨hraw, hskip, -⟩
    exact hexclusive ((mkRecord_isRaw_iff _ _ _ i).mp hraw) ((mkRecord_isSkip_iff _ _ _ i).mp hskip)

/-! ### E3 on the host's first move -/

theorem programWindow_length (image : List Byte) (p : Fin 8) :
    (programWindow image p).length = min 512 (image.length - 512 * p.val) := by
  rw [programWindow, List.length_take, List.length_drop]
  rfl

theorem truncated_iff (image : List Byte) (p : Fin 8) :
    truncated image p = true ↔ image.length < 512 * p.val + 512 := by
  rw [truncated, programWindow_length, decide_eq_true_eq, Config.progBytes]
  omega

theorem step_obtain_short {s : State} (h : s.host.phase = .obtain)
    (hshort : s.host.image.length < 512 * s.host.options.program.val + 512) :
    step s = .fault .truncatedInput :=
  (step_obtain h).trans (if_pos ((truncated_iff ..).mpr hshort))

theorem step_obtain_full {s : State} (h : s.host.phase = .obtain)
    (hfull : 512 * s.host.options.program.val + 512 ≤ s.host.image.length) : step s = .next (startRun s) :=
  (step_obtain h).trans (if_neg ((truncated_iff ..).not.mpr hfull.not_gt))

/-- After the program is obtained every move of the host answers a next state. -/
theorem step_next_of_not_obtain {s : State} (h : s.host.phase ≠ .obtain) : ∃ t, step s = .next t := by
  cases hphase : s.host.phase with
  | obtain => exact absurd hphase h
  | decode =>
    cases hpending : s.host.pending with
    | nil => exact ⟨_, step_label hphase hpending⟩
    | cons p rest => exact ⟨_, step_of_presentation hphase hpending⟩
  | render => exact ⟨_, step_render hphase⟩
  | release => exact ⟨_, step_release hphase⟩
  | finished => exact ⟨_, step_finished hphase⟩

/-- Settles O15: E1 by the RAW set, E2 by the exact sum of a skip, E3 by the length of
the image, whose window stands at 512 times the program's number (log 7). -/
theorem conditionsAreReported : Obligations.ConditionsAreReported := by
  refine ⟨fun s => ⟨_, exec_eq_mkRecord _ s, rfl, ?e1, mkRecord_isRaw_iff ..⟩,
    fun i s => ⟨_, exec_eq_mkRecord i s, mkRecord_invalidTarget_iff i s, ?kept⟩,
    fun s => ⟨fun ⟨hphase, hshort⟩ => step_obtain_short hphase hshort, fun hother => ?goesOn⟩⟩
  case e1 =>
    exact (mkRecord_isRaw_iff ..).trans ((decode_op_eq_raw_iff s.word).trans (unmatched_iff_extract s.word))
  case kept =>
    rintro flags offset rfl
    exact ⟨recordOfSkip_target_toInt s flags offset, recordOfSkip_offset_toInt s flags offset⟩
  case goesOn =>
    by_cases hphase : s.host.phase = .obtain
    · exact ⟨_, step_obtain_full hphase (Nat.le_of_not_lt fun hshort => hother ⟨hphase, hshort⟩)⟩
    · exact step_next_of_not_obtain hphase

end Sys2Proof.Machine
end

section
/-! What the buffer reads after bytes are put into it (20_memory R40, R42, R43; logs 2 and 4). -/

namespace Sys2Proof.Machine

theorem Memory.read_cons (a : Nat) (b : Byte) (m : Memory) (y : Nat) :
    Memory.read ((a, b) :: m) y = if y = a then b else m.read y := rfl

/-- A byte written reads back, and every other byte is as it was. The canonical form is used where a blank byte is
written: what the list no longer names, it does not name further on. -/
theorem Memory.read_write {lo : Nat} {m : Memory} (w : Memory.wfFrom lo m = true) (x y : Nat) (v : Byte) :
    (m.write x v).read y = if y = x then v else m.read y := by
  induction m generalizing lo with
  | nil =>
    by_cases hblank : v = Memory.blank
    · simp [Memory.write, hblank, Memory.read]
    · rw [Memory.write, if_neg hblank, Memory.read_cons]
  | cons c m ih =>
    obtain ⟨a, b⟩ := c
    obtain ⟨-, ha, hb, htail⟩ := (Memory.wfFrom_cons ..).mp w
    rw [Memory.write]
    rcases lt_trichotomy x a with hlt | rfl | hgt
    · have hbelow : Memory.read ((a, b) :: m) x = Memory.blank :=
        Memory.read_below ((Memory.wfFrom_cons ..).mpr ⟨le_rfl, ha, hb, htail⟩) hlt
      by_cases hblank : v = Memory.blank
      · rw [if_pos hlt, if_pos hblank, hblank, ← hbelow]
        split <;> simp_all
      · rw [if_pos hlt, if_neg hblank, Memory.read_cons]
    · have hbelow : Memory.read m x = Memory.blank := Memory.read_below htail (Nat.lt_succ_self x)
      by_cases hblank : v = Memory.blank <;> by_cases hy : y = x <;> simp [hblank, hy, Memory.read_cons, hbelow]
    · rw [if_neg hgt.not_gt, if_neg hgt.ne', Memory.read_cons, Memory.read_cons, ih htail]
      by_cases hy : y = x
      · rw [if_neg (hy ▸ hgt.ne'), if_pos hy, if_pos hy]
      · rw [if_neg hy, if_neg hy]

/-- Bytes stored from `x` on leave every byte below as it was. -/
theorem Memory.read_writeBytes_below {m : Memory} (w : m.wf = true) (bytes : List Byte) {x y : Nat}
    (hx : x + bytes.length ≤ 512) (hy : y < x) : (m.writeBytes x bytes).read y = m.read y := by
  induction bytes generalizing m x with
  | nil => rfl
  | cons b bs ih =>
    rw [List.length_cons] at hx
    rw [Memory.writeBytes, ih (Memory.write_wf w (by omega) b) (by omega) (by omega), Memory.read_write w,
      if_neg hy.ne]

/-- Bytes stored from `x` on read back there, and after the last of them every byte is as it was. -/
theorem Memory.read_writeBytes {m : Memory} (w : m.wf = true) (bytes : List Byte) {x : Nat}
    (hx : x + bytes.length ≤ 512) (j : Nat) :
    (m.writeBytes x bytes).read (x + j) = bytes.getD j (m.read (x + j)) := by
  induction bytes generalizing m x j with
  | nil => rfl
  | cons b bs ih =>
    rw [List.length_cons] at hx
    have hwritten : (m.write x b).wf = true := Memory.write_wf w (by omega) b
    rw [Memory.writeBytes]
    cases j with
    | zero =>
      rw [Memory.read_writeBytes_below hwritten bs (by omega) (by omega), Memory.read_write w,
        if_pos (Nat.add_zero x), List.getD_cons_zero]
    | succ j =>
      have hnext : x + (j + 1) = x + 1 + j := by omega
      rw [hnext, ih hwritten (by omega), Memory.read_write w, if_neg (by omega), List.getD_cons_succ]

/-- A word placed in a slot is the slot's word (R42, R43). -/
theorem slotWord_placeWord_same {m : Memory} (w : m.wf = true) (a : Slot) (word : Word) :
    slotWord (placeWord m a word) a = word := by
  have ha : a.toNat < 128 := a.isLt
  have hroom : slotBase a + (bytesOfWord word).length ≤ 512 := by
    rw [show (bytesOfWord word).length = 4 from rfl, slotBase, Config.slotBytes]
    omega
  have hread := Memory.read_writeBytes w (bytesOfWord word) hroom
  calc slotWord (placeWord m a word) a
      = wordOfBytes (word.extractLsb' 24 8) (word.extractLsb' 16 8) (word.extractLsb' 8 8) (word.extractLsb' 0 8) :=
        congr (congr (congr (congrArg wordOfBytes (hread 0)) (hread 1)) (hread 2)) (hread 3)
    _ = word := wordOfBytes_bytesOfWord word

theorem Memory.read_ofBytesFrom_below (bytes : List Byte) {base x : Nat} (hx : x < base) :
    (Memory.ofBytesFrom base bytes).read x = Memory.blank := by
  induction bytes generalizing base with
  | nil => rfl
  | cons b bs ih =>
    have htail : (Memory.ofBytesFrom (base + 1) bs).read x = Memory.blank := ih (by omega)
    rw [Memory.ofBytesFrom]
    split
    next => exact htail
    next => rw [Memory.read_cons, if_neg hx.ne, htail]

theorem Memory.read_ofBytesFrom (bytes : List Byte) (base j : Nat) :
    (Memory.ofBytesFrom base bytes).read (base + j) = bytes.getD j Memory.blank := by
  induction bytes generalizing base j with
  | nil => rfl
  | cons b bs ih =>
    have hhead : (Memory.ofBytesFrom (base + 1) bs).read base = Memory.blank :=
      Memory.read_ofBytesFrom_below bs (Nat.lt_succ_self base)
    have htail (j : Nat) : (Memory.ofBytesFrom (base + 1) bs).read (base + (j + 1)) = bs.getD j Memory.blank := by
      rw [← ih (base + 1) j, Nat.add_right_comm, Nat.add_assoc]
    rw [Memory.ofBytesFrom]
    split
    next hblank => cases j <;> simp [hhead, htail, hblank]
    next => cases j <;> simp [Memory.read_cons, htail]

/-- A program of bytes put into the buffer reads back byte by byte. -/
theorem Memory.read_ofBytes (bytes : List Byte) (x : Nat) :
    (Memory.ofBytes bytes).read x = bytes.getD x Memory.blank := by
  rw [← Memory.read_ofBytesFrom bytes 0 x, Nat.zero_add, Memory.ofBytes]

/-- The byte of the selected program at an address of the buffer (R47; log 7). -/
theorem programWindow_getD (image : List Byte) (p : Fin 8) {x : Nat} (hx : x < 512) (d : Byte) :
    (programWindow image p).getD x d = image.getD (512 * p.val + x) d := by
  rw [programWindow, Config.progBytes, List.getD_eq_getElem?_getD, List.getD_eq_getElem?_getD,
    List.getElem?_take_of_lt hx, List.getElem?_drop]

end Sys2Proof.Machine
end

section
/-! Moves of the host that need no more than their own equation: the presentation of a word placed from outside
(60_exceptions R171; log 4), and rest after the end of a run (R180; log 5). -/

namespace Sys2Proof.Machine

/-- Settles O42: the slot of the placed word is the one presented next, and its word is the one placed. -/
theorem placedWordRunsNext : Obligations.PlacedWordRunsNext := by
  intro s nbits w hmem
  obtain ⟨rest, hpending⟩ := pendingFrom_eq_cons (s := s)
  have hplaced : slotWord (s.withFetchWord nbits w).mem (nextPresentation s).addr = BitVec.ofNat 32 (w % 2 ^ nbits) :=
    slotWord_placeWord_same hmem _ _
  exact ⟨_, step_of_presentation rfl hpending, hplaced, rfl, rfl⟩

/-- Settles O55, which is the move of a finished run. -/
theorem finishedRunIsAtRest : Obligations.FinishedRunIsAtRest := fun _ => step_finished

end Sys2Proof.Machine
end

section
/-! The label table as a list (60_exceptions R175): the targets of the valid skips in order of first appearance. -/

namespace Sys2Proof

section
variable {α : Type} [DecidableEq α]

/-- An element after a list is one more first appearance, or none if the list has it. -/
theorem eraseDups_append_singleton (l : List α) (a : α) :
    (l ++ [a]).eraseDups = if a ∈ l then l.eraseDups else l.eraseDups ++ [a] := by
  rw [List.eraseDups_append]
  by_cases h : a ∈ l <;> simp [List.removeAll, h, List.eraseDups_cons]

theorem nodup_eraseDups (l : List α) : l.eraseDups.Nodup := by
  induction l using List.reverseRecOn with
  | nil => exact List.nodup_nil
  | append_singleton l a ih =>
    rw [eraseDups_append_singleton]
    split
    next => exact ih
    next hnew =>
      rw [← List.concat_eq_append]
      exact ih.concat fun ha => hnew (List.mem_eraseDups.mp ha)

end

end Sys2Proof

namespace Sys2Proof.Machine

/-- The targets of the valid skips, in the order of the records. -/
def validTargets (records : List Record) : List Slot :=
  (records.filter fun r => r.isSkip && r.targetValid).map Record.targetSlot

theorem mem_validTargets (records : List Record) (a : Slot) : a ∈ validTargets records ↔
    ∃ r ∈ records, r.isSkip = true ∧ r.targetValid = true ∧ r.targetSlot = a := by
  simp only [validTargets, List.mem_map, List.mem_filter, Bool.and_eq_true, and_assoc]

theorem validTargets_append_valid (records : List Record) {r : Record} (h : r.isSkip = true ∧ r.targetValid = true) :
    validTargets (records ++ [r]) = validTargets records ++ [r.targetSlot] := by
  simp [validTargets, h]

theorem validTargets_append_other (records : List Record) {r : Record}
    (h : ¬(r.isSkip = true ∧ r.targetValid = true)) : validTargets (records ++ [r]) = validTargets records := by
  rw [← Bool.and_eq_true] at h
  simp [validTargets, h]

/-- A target has a label exactly when a valid skip of the records names it. -/
theorem lookup_labelTable_eq_none_iff (records : List Record) (a : Slot) :
    (labelTable records).lookup a = none ↔ a ∉ validTargets records := by
  rw [lookup_labelTable, mem_validTargets, ite_eq_right_iff]
  simp only [reduceCtorEq, imp_false]

/-- The table grows with the scan as the list of first appearances does. -/
theorem labelTable_eq_eraseDups (records : List Record) :
    labelTable records = (validTargets records).eraseDups.map fun a => (a, labelText a) := by
  induction records using List.reverseRecOn with
  | nil => rfl
  | append_singleton records r ih =>
    rw [labelTable_append_singleton]
    by_cases hvalid : r.isSkip = true ∧ r.targetValid = true
    · rw [validTargets_append_valid records hvalid, eraseDups_append_singleton]
      by_cases hseen : r.targetSlot ∈ validTargets records
      · have hlabelled : (labelTable records).lookup r.targetSlot ≠ none :=
          fun hnone => (lookup_labelTable_eq_none_iff ..).mp hnone hseen
        rw [if_pos hseen, ← ih, addLabel, if_neg fun ⟨_, _, hnone⟩ => hlabelled hnone]
      · have hnew : (labelTable records).lookup r.targetSlot = none :=
          (lookup_labelTable_eq_none_iff ..).mpr hseen
        rw [if_neg hseen, List.map_append, ← ih, addLabel, if_pos ⟨hvalid.1, hvalid.2, hnew⟩]
        rfl
    · rw [validTargets_append_other records hvalid, ← ih, addLabel,
        if_neg fun ⟨hskip, htarget, _⟩ => hvalid ⟨hskip, htarget⟩]

theorem labelTable_addresses (records : List Record) :
    (labelTable records).map Prod.fst = (validTargets records).eraseDups := by
  rw [labelTable_eq_eraseDups, List.map_map]
  exact List.map_id _

/-- Settles O48: the table by `labelTable_eq_eraseDups`; in relative mode pass 2 is skipped. -/
theorem labelTableIsFirstAppearance : Obligations.LabelTableIsFirstAppearance := by
  refine ⟨fun records => ⟨labelTable_eq_eraseDups records, ?_⟩, fun records => ⟨rfl, rfl⟩⟩
  rw [labelTable_addresses]
  exact nodup_eraseDups _

end Sys2Proof.Machine
end

section
/-! The diagnostic stream and the end of a run (60_exceptions R161 E2, R177, R178; logs 9 and 10). -/

namespace Sys2Proof.Machine

theorem Record.warning_eq_some_iff (r : Record) (w : Warning) : r.warning = some w ↔
    r.isSkip = true ∧ r.targetValid = false ∧ w = ⟨r.addr, r.opnd1.num, r.target⟩ := by
  rw [Record.warning, Option.ite_none_right_eq_some, Option.some.injEq, and_assoc, eq_comm (a := w)]

theorem mem_warningsOf (records : List Record) (w : Warning) : w ∈ warningsOf records ↔
    ∃ r ∈ records, r.isSkip = true ∧ r.targetValid = false ∧ w = ⟨r.addr, r.opnd1.num, r.target⟩ := by
  simp only [warningsOf, List.mem_filterMap, Record.warning_eq_some_iff]

theorem warningsOf_ne_nil_iff (records : List Record) : warningsOf records ≠ [] ↔
    ∃ r ∈ records, r.isSkip = true ∧ r.targetValid = false := by
  simp only [ne_eq, List.eq_nil_iff_forall_not_mem, mem_warningsOf, not_forall, not_not]
  constructor
  · rintro ⟨-, r, hr, hskip, hinvalid, -⟩
    exact ⟨r, hr, hskip, hinvalid⟩
  · rintro ⟨r, hr, hskip, hinvalid⟩
    exact ⟨_, r, hr, hskip, hinvalid, rfl⟩

/-- Records in address order give warnings in address order. -/
theorem warningsOf_ascending {records : List Record}
    (h : records.Pairwise fun q r => q.addr.toNat < r.addr.toNat) :
    (warningsOf records).Pairwise fun v w => v.addr.toNat < w.addr.toNat := by
  refine List.pairwise_filterMap.mpr (h.imp fun {q r} hlt v hv w hw => ?_)
  obtain ⟨-, -, rfl⟩ := (q.warning_eq_some_iff v).mp hv
  obtain ⟨-, -, rfl⟩ := (r.warning_eq_some_iff w).mp hw
  exact hlt

theorem runResult_eq_failed_iff (escalate : Bool) (records : List Record) : runResult escalate records = .failed ↔
    escalate = true ∧ ∃ r ∈ records, r.isSkip = true ∧ r.targetValid = false := by
  rw [← warningsOf_ne_nil_iff, runResult]
  split <;> simp_all

theorem runResult_eq_failed_or_succeeded (escalate : Bool) (records : List Record) :
    runResult escalate records = .failed ∨ runResult escalate records = .succeeded :=
  ite_eq_or_eq ..

/-- Settles O51: the fields that the rendering pass writes. -/
theorem warningsUnlessQuiet : Obligations.WarningsUnlessQuiet := by
  intro s hphase
  refine ⟨_, step_render hphase, rfl, fun hquiet => ?quiet, fun hloud w => ?loud, fun hascending => ?ordered,
    runResult_eq_failed_iff .., runResult_eq_failed_or_succeeded ..⟩
  case quiet =>
    rw [renderPass_warnings, diagnostics, if_pos hquiet]
  case loud =>
    rw [renderPass_warnings, diagnostics, hloud]
    exact mem_warningsOf ..
  case ordered =>
    rw [renderPass_warnings, diagnostics]
    split
    next => exact List.Pairwise.nil
    next => exact warningsOf_ascending hascending

end Sys2Proof.Machine
end

section
/-! A whole run (60_exceptions R173 to R180): steps one after another, the 128 presentations of pass 1, and the
moves before and after them. -/

/-! ### Runs of several steps -/

namespace Sys2Proof

section
variable {M : Host.Core} {s t : M.State}

theorem run_succ_of_next (h : M.step s = .next t) (k : Nat) : M.run (k + 1) s = M.run k t := by
  rw [Host.Core.run, h]

theorem run_succ_of_fault {r : M.Fault} (h : M.step s = .fault r) (k : Nat) : M.run (k + 1) s = .fault r := by
  rw [Host.Core.run, h]

theorem run_one_of_next (h : M.step s = .next t) : M.run 1 s = .next t :=
  run_succ_of_next h 0

/-- A run that goes on for `m` steps continues from the state it reached. -/
theorem run_add_of_next {m : Nat} (h : M.run m s = .next t) (n : Nat) : M.run (m + n) s = M.run n t := by
  induction m generalizing s with
  | zero =>
    cases h
    rw [Nat.zero_add]
  | succ m ih =>
    rw [Nat.add_right_comm]
    cases hstep : M.step s with
    | next s' =>
      rw [run_succ_of_next hstep] at h ⊢
      exact ih h
    | fault r => simp [run_succ_of_fault hstep] at h
    | refused r => simp [Host.Core.run, hstep] at h

end

end Sys2Proof

namespace Sys2Proof.Machine

/-! ### Pass 1 -/

/-- The record kept of a presentation of a slot of the buffer (R62, R174). -/
def presentedRecord (m : Memory) (p : Presentation) : Record :=
  blockRecord (slotWord m p.addr) p.addr p.suppressRaw

/-- The host's keeping of the record of one presentation (R174; log 5). -/
def keepPresented (m : Memory) (records : List Record) (p : Presentation) : List Record :=
  insertRecord (presentedRecord m p) records

/-- The presentations pending are worked off one a step; buffer and options stay (R50 a, R174). -/
theorem run_presentations (ps : List Presentation) {s : State} (hphase : s.host.phase = .decode)
    (hpending : s.host.pending = ps) : ∃ t, core.run ps.length s = .next t ∧ t.mem = s.mem ∧
      t.host = { s.host with
        pending := []
        records := ps.foldl (keepPresented s.mem) s.host.records } := by
  induction ps generalizing s with
  | nil => exact ⟨s, rfl, rfl, by rw [List.foldl_nil, ← hpending]⟩
  | cons p ps ih =>
    have hstep := step_of_presentation hphase hpending
    obtain ⟨t, hrun, hmem, hhost⟩ := ih (s := State.keepRecord { s.present p with
      out := blockRecord (slotWord s.mem p.addr) p.addr p.suppressRaw } ps) hphase rfl
    exact ⟨t, (run_succ_of_next (M := core) hstep _).trans hrun, hmem, hhost⟩

/-- A record of a slot above those kept goes to the end. -/
theorem insertRecord_of_above {r : Record} {rs : List Record} (h : ∀ q ∈ rs, q.addr.toNat < r.addr.toNat) :
    insertRecord r rs = rs ++ [r] := by
  induction rs with
  | nil => rfl
  | cons q qs ih =>
    obtain ⟨hq, hqs⟩ := List.forall_mem_cons.mp h
    rw [insertRecord_cons_of_gt hq, ih hqs, List.cons_append]

/-- Slots presented in ascending order give their records in that order. -/
theorem keep_ascending (m : Memory) (ps : List Presentation)
    (h : ps.Pairwise fun p q => p.addr.toNat < q.addr.toNat) :
    ps.foldl (keepPresented m) [] = ps.map (presentedRecord m) := by
  induction ps using List.reverseRecOn with
  | nil => rfl
  | append_singleton ps p ih =>
    obtain ⟨hps, -, hlast⟩ := List.pairwise_append.mp h
    rw [List.foldl_append, ih hps, List.map_append]
    refine insertRecord_of_above fun q hq => ?_
    obtain ⟨p', hp', rfl⟩ := List.mem_map.mp hq
    exact hlast p' hp' p (List.mem_singleton_self p)

theorem allSlots_length (suppressRaw : Bool) : (allSlots suppressRaw).length = 128 := by
  rw [allSlots, List.length_map, List.length_range, Config.nslots]

theorem allSlots_ascending (suppressRaw : Bool) :
    (allSlots suppressRaw).Pairwise fun p q => p.addr.toNat < q.addr.toNat := by
  refine List.pairwise_map.mpr (List.pairwise_lt_range.imp_of_mem fun ha hb hlt => ?_)
  rw [List.mem_range, Config.nslots] at ha hb
  rw [BitVec.toNat_ofNat, BitVec.toNat_ofNat]
  omega

/-! ### The run -/

/-- The records of the 128 slots of a buffer (R174). -/
def slotRecords (m : Memory) (suppressRaw : Bool) : List Record :=
  (List.range 128).map fun a => blockRecord (slotWord m (BitVec.ofNat 7 a)) (BitVec.ofNat 7 a) suppressRaw

theorem map_allSlots (m : Memory) (suppressRaw : Bool) :
    (allSlots suppressRaw).map (presentedRecord m) = slotRecords m suppressRaw := by
  rw [allSlots, List.map_map]
  rfl

/-- The host between pass 1 and pass 2 of the run that begins in `s`: no slot is pending, all records are kept. -/
def hostAfterPass1 (s : State) : Disassembler :=
  { (startRun s).host with
    pending := []
    records := slotRecords (startRun s).mem s.host.options.suppressRaw }

/-- Pass 1 takes one step for each of the 128 slots (log 5). -/
theorem run_pass1 (s : State) : ∃ t, core.run 128 (startRun s) = .next t ∧ t.mem = (startRun s).mem ∧
    t.host = hostAfterPass1 s := by
  obtain ⟨t, hrun, hmem, hhost⟩ := run_presentations (allSlots s.host.options.suppressRaw)
    (startRun_phase s) (startRun_pending s)
  rw [startRun_records, keep_ascending _ _ (allSlots_ascending _), map_allSlots] at hhost
  rw [allSlots_length] at hrun
  exact ⟨t, hrun, hmem, hhost⟩

/-- A run on an image that is long enough: the start, pass 1, pass 2, pass 3. -/
theorem run_to_release {s : State} (hphase : s.host.phase = .obtain)
    (hfull : 512 * s.host.options.program.val + 512 ≤ s.host.image.length) :
    ∃ t, core.run 131 s = .next (renderPass (labelPass t)) ∧ t.mem = (startRun s).mem ∧
      t.host = hostAfterPass1 s := by
  obtain ⟨t, hpass1, hmem, hhost⟩ := run_pass1 s
  have hdecode : t.host.phase = .decode := by rw [hhost]; rfl
  have hnone : t.host.pending = [] := by rw [hhost]; rfl
  have hrun : core.run (1 + (128 + (1 + 1))) s = .next (renderPass (labelPass t)) := by
    rw [run_add_of_next (run_one_of_next (M := core) (step_obtain_full hphase hfull)), run_add_of_next hpass1,
      run_add_of_next (run_one_of_next (M := core) (step_label hdecode hnone))]
    exact run_one_of_next (M := core) (step_render (labelPass_phase t))
  exact ⟨t, hrun, hmem, hhost⟩

/-- The byte that a run puts at an address of the buffer (R47; log 7). -/
theorem read_startRun (s : State) {x : Nat} (hx : x < 512) :
    (startRun s).mem.read x = s.host.image.getD (512 * s.host.options.program.val + x) 0 := by
  rw [startRun_mem, Memory.read_ofBytes, programWindow_getD _ _ hx, Memory.blank]

/-- Settles O54: `run_to_release` and the move after it; the fields by what each pass writes. -/
theorem runDisassemblesTheProgram : Obligations.RunDisassemblesTheProgram := by
  intro s hphase
  refine ⟨fun hshort => run_succ_of_fault (M := core) (step_obtain_short hphase hshort), fun hfull => ?_⟩
  obtain ⟨t, hrun, hmem, hhost⟩ := run_to_release hphase hfull
  have hrelease : core.run 132 s = .next (releaseRun (renderPass (labelPass t))) :=
    (run_add_of_next hrun 1).trans (run_one_of_next (M := core) (step_release (renderPass_phase _)))
  refine ⟨_, _, hrun, rfl, ?buffer, ?records, ?labels, ?lines, ?count, ?warnings, ?result, hrelease, rfl,
    rfl, rfl, rfl⟩
  case buffer =>
    intro x hx
    rw [renderPass_mem, labelPass_mem, hmem, read_startRun s hx]
  case records =>
    rw [renderPass_records, labelPass_records, renderPass_mem, labelPass_mem, hmem, hhost]
    rfl
  case labels => simp [hhost, hostAfterPass1]
  case lines => simp [hhost, hostAfterPass1]
  case count => simp [hhost, hostAfterPass1, slotRecords]
  case warnings => simp [hhost, hostAfterPass1]
  case result => simp [hhost, hostAfterPass1]

end Sys2Proof.Machine
end

section
/-! The rows of the opcode table (30_encoding, introduction): no two rows match the same word, and the row that matches
a word names the operation that the decoder gives it. -/

namespace Sys2Proof

/-! ### No word matches two rows -/

/-- On the bits that both masks keep, the patterns of two rows differ. -/
def Table.Row.Disagree (r q : Table.Row) : Prop := r.pattern &&& q.mask ≠ q.pattern &&& r.mask

theorem Table.Row.Disagree.symm {r q : Table.Row} (h : r.Disagree q) : q.Disagree r := Ne.symm h

theorem Table.rows_pairwise_disagree : Table.rows.Pairwise Table.Row.Disagree := by
  unfold Table.Row.Disagree
  decide

theorem Table.not_disagree_of_rowMatches {r q : Table.Row} {word : Word} (hr : Table.rowMatches r word = true)
    (hq : Table.rowMatches q word = true) : ¬ r.Disagree q := by
  have hr : word &&& r.mask = r.pattern := beq_iff_eq.mp hr
  have hq : word &&& q.mask = q.pattern := beq_iff_eq.mp hq
  have hboth : r.pattern &&& q.mask = q.pattern &&& r.mask := by
    rw [← hr, ← hq, BitVec.and_assoc, BitVec.and_assoc, BitVec.and_comm r.mask]
  exact not_not_intro hboth

theorem Table.eq_of_rowMatches {r q : Table.Row} {word : Word} (hrow : r ∈ Table.rows) (qrow : q ∈ Table.rows)
    (hr : Table.rowMatches r word = true) (hq : Table.rowMatches q word = true) : q = r := by
  have hsymm : Std.Symm Table.Row.Disagree := ⟨fun _ _ => Table.Row.Disagree.symm⟩
  by_contra hne
  exact Table.not_disagree_of_rowMatches hq hr (Table.rows_pairwise_disagree.forall qrow hrow hne)

/-! ### Every word matches the row of its operation -/

/-- A row of the table with this operation matches the word. -/
def Table.HasRow (op : OpId) (word : Word) : Prop :=
  ∃ r ∈ Table.rows, Table.rowMatches r word = true ∧ r.op = op

theorem Table.hasRow_of_mem {op : OpId} {pattern mask word : Word} (hrow : ⟨op, pattern, mask⟩ ∈ Table.rows)
    (h : word &&& mask = pattern) : Table.HasRow op word :=
  ⟨_, hrow, beq_iff_eq.mpr h, rfl⟩

/-- A row whose mask is the opcode field (R61). -/
theorem Table.hasRow_of_opcode {op : OpId} {word : Word} (hop : takeField Table.opcode 5 word = Table.opcodeOf op)
    (hrow : ⟨op, placeOpcode op, fieldMask Table.opcode 5⟩ ∈ Table.rows) : Table.HasRow op word :=
  Table.hasRow_of_mem hrow (placeOpcode_of_takeField_eq hop).symm

/-- A row whose mask is the opcode field with the bits that select under it (R63). -/
theorem Table.hasRow_of_opcode_of_field {op : OpId} {word : Word} {f : Field} {w : Nat} {v : BitVec w}
    (hop : takeField Table.opcode 5 word = Table.opcodeOf op) (hsel : takeField f w word = v)
    (hrow : ⟨op, placeOpcode op ||| placeField f v, fieldMask Table.opcode 5 ||| fieldMask f w⟩ ∈ Table.rows) :
    Table.HasRow op word := by
  refine Table.hasRow_of_mem hrow ?_
  rw [BitVec.and_or_distrib_left, placeOpcode_of_takeField_eq hop, placeField_of_takeField_eq hsel]

/-- The four RAW rows cover the RAW set (R150). -/
theorem Table.hasRow_raw {word : Word} (h : unmatched word = true) : Table.HasRow .raw word := by
  rcases (unmatched_iff_masks word).mp h with h | h | h | h <;> exact Table.hasRow_of_mem (by decide) h

theorem Table.hasRow_decodeWld {word : Word} (h : takeField Table.opcode 5 word = 0x12#5) :
    Table.HasRow (decodeWld word).op word := by
  unfold decodeWld
  split
  next hsel => exact Table.hasRow_of_opcode_of_field (op := .wlds) h hsel (by decide)
  next hsel =>
    have hsel : takeField Table.lfoSelect 1 word = 1#1 := (BitVec.eq_zero_or_eq_one _).resolve_left hsel
    exact Table.hasRow_of_opcode_of_field (op := .wldr) h hsel (by decide)

theorem Table.hasRow_decodeCho {word : Word} (h : takeField Table.opcode 5 word = 0x14#5)
    (hraw : (decodeCho word).op ≠ .raw) : Table.HasRow (decodeCho word).op word := by
  revert hraw
  unfold decodeCho
  split
  next hsel => exact fun _ => Table.hasRow_of_opcode_of_field (op := .choRda) h hsel (by decide)
  next hsel => exact fun _ => Table.hasRow_of_opcode_of_field (op := .choSof) h hsel (by decide)
  next hsel => exact fun _ => Table.hasRow_of_opcode_of_field (op := .choRdal) h hsel (by decide)
  next => exact fun hraw => absurd rfl hraw

theorem Table.hasRow_decode (word : Word) : Table.HasRow (decode word).op word := by
  by_cases hraw : (decode word).op = .raw
  · rw [hraw]
    exact Table.hasRow_raw ((decode_op_eq_raw_iff word).mp hraw)
  · revert hraw
    unfold decode
    split
    case h_19 h => exact fun _ => Table.hasRow_decodeWld h
    case h_21 h => exact Table.hasRow_decodeCho h
    case h_22 => exact fun hraw => absurd rfl hraw
    all_goals
      simp only [Instr.op]
      exact fun _ => Table.hasRow_of_opcode ‹takeField Table.opcode 5 word = _› (by decide)

/-- Settles O4: the word has the row of its operation, and rows that match the same word are equal. -/
theorem opcodeRowsPartitionWords : Obligations.OpcodeRowsPartitionWords := by
  refine ⟨rfl, fun word => ?_⟩
  obtain ⟨r, hrow, hr, hop⟩ := Table.hasRow_decode word
  exact ⟨r, hrow, hr, hop, fun _ qrow hq => Table.eq_of_rowMatches hrow qrow hr hq⟩

end Sys2Proof
end

section
/-! The canonical form of the buffer (20_memory R40, R42; log 2): what it reads past its end, that it is fixed by what
it reads, and that what is placed from outside reaches no other byte and no other slot (log 4). -/

namespace Sys2Proof.Machine

/-! ### Reading a buffer in the canonical form -/

/-- Past byte 511 nothing is listed (R40). -/
theorem Memory.read_beyond {lo : Nat} {m : Memory} (w : Memory.wfFrom lo m = true) {x : Nat} (hx : 512 ≤ x) :
    m.read x = Memory.blank := by
  induction m generalizing lo with
  | nil => rfl
  | cons c m ih =>
    obtain ⟨a, b⟩ := c
    obtain ⟨-, ha, -, htail⟩ := (Memory.wfFrom_cons ..).mp w
    rw [Memory.read_cons, if_neg (ha.trans_le hx).ne', ih htail]

theorem Memory.read_head (a : Nat) (b : Byte) (m : Memory) : Memory.read ((a, b) :: m) a = b :=
  if_pos rfl

/-- The first listed address is the least that does not read blank. -/
theorem Memory.head_le_of_read_ne_blank {lo a x : Nat} {b : Byte} {m : Memory}
    (w : Memory.wfFrom lo ((a, b) :: m) = true) (h : Memory.read ((a, b) :: m) x ≠ Memory.blank) : a ≤ x := by
  obtain ⟨-, ha, hb, htail⟩ := (Memory.wfFrom_cons ..).mp w
  by_contra hlt
  exact h (Memory.read_below ((Memory.wfFrom_cons ..).mpr ⟨le_rfl, ha, hb, htail⟩) (Nat.lt_of_not_le hlt))

/-- Two buffers in the canonical form that read alike are the same list: both begin at the least address that does not
read blank, and go on alike above it. -/
theorem Memory.eq_of_read_eq {lo hi : Nat} {m n : Memory} (wm : Memory.wfFrom lo m = true)
    (wn : Memory.wfFrom hi n = true) (h : ∀ x, m.read x = n.read x) : m = n := by
  induction m generalizing lo hi n with
  | nil =>
    cases n with
    | nil => rfl
    | cons d n =>
      obtain ⟨-, -, hblank, -⟩ := (Memory.wfFrom_cons ..).mp wn
      exact absurd ((h d.1).trans (Memory.read_head ..)).symm hblank
  | cons c m ih =>
    obtain ⟨a, b⟩ := c
    obtain ⟨-, -, hb, hm⟩ := (Memory.wfFrom_cons ..).mp wm
    cases n with
    | nil => exact absurd ((Memory.read_head ..).symm.trans (h a)) hb
    | cons d n =>
      obtain ⟨a', b'⟩ := d
      obtain ⟨-, -, hb', hn⟩ := (Memory.wfFrom_cons ..).mp wn
      have hle : a ≤ a' := Memory.head_le_of_read_ne_blank wm (by rwa [h a', Memory.read_head])
      have hge : a' ≤ a := Memory.head_le_of_read_ne_blank wn (by rwa [← h a, Memory.read_head])
      obtain rfl : a = a' := le_antisymm hle hge
      obtain rfl : b = b' := by rw [← Memory.read_head a b m, h a, Memory.read_head]
      have htail : ∀ x, Memory.read m x = Memory.read n x := by
        intro x
        rcases Nat.lt_or_ge a x with hx | hx
        · have hx' := h x
          rwa [Memory.read_cons, Memory.read_cons, if_neg hx.ne', if_neg hx.ne'] at hx'
        · rw [Memory.read_below hm (Nat.lt_succ_of_le hx), Memory.read_below hn (Nat.lt_succ_of_le hx)]
      rw [ih hm hn htail]

/-- Settles O39, from `Memory.read_ofBytes` and `Memory.eq_of_read_eq`. -/
theorem bufferHoldsTheProgram : Obligations.BufferHoldsTheProgram :=
  ⟨Memory.read_ofBytes, fun _ _ => Memory.eq_of_read_eq⟩

/-! ### What is placed from outside -/

/-- A slot's word is made of the four bytes from its base on (R42, R43). -/
theorem slotWord_eq_of_read_eq {m n : Memory} {c : Slot}
    (h : ∀ j, j < 4 → m.read (slotBase c + j) = n.read (slotBase c + j)) : slotWord m c = slotWord n c := by
  have h0 : m.read (slotBase c) = n.read (slotBase c) := h 0 (by decide)
  rw [slotWord, slotWord, Memory.readContainer, Memory.readContainer, h0, h 1 (by decide), h 2 (by decide),
    h 3 (by decide)]

/-- A word placed in a slot changes no byte outside the slot's four. -/
theorem read_placeWord_outside {m : Memory} (w : m.wf = true) (a : Slot) (word : Word) {y : Nat}
    (hy : y < slotBase a ∨ slotBase a + 4 ≤ y) : (placeWord m a word).read y = m.read y := by
  have hlength : (bytesOfWord word).length = 4 := rfl
  have hroom : slotBase a + (bytesOfWord word).length ≤ 512 := by
    have ha : a.toNat < 128 := a.isLt
    rw [hlength, slotBase, Config.slotBytes]
    omega
  rcases hy with hbelow | habove
  · exact Memory.read_writeBytes_below w _ hroom hbelow
  · obtain ⟨j, rfl⟩ := Nat.exists_eq_add_of_le (Nat.le_of_add_right_le habove)
    have hj : (bytesOfWord word).length ≤ j := by omega
    rw [placeWord, Memory.read_writeBytes w _ hroom, List.getD_eq_default _ _ hj]

/-- The bytes of different slots are different (R42). -/
theorem slotBase_add_outside {a c : Slot} (h : c ≠ a) {j : Nat} (hj : j < 4) :
    slotBase c + j < slotBase a ∨ slotBase a + 4 ≤ slotBase c + j := by
  have hne : c.toNat ≠ a.toNat := BitVec.toNat_ne.mp h
  rw [slotBase, slotBase, Config.slotBytes]
  omega

/-- A word placed in a slot leaves the word of every other slot as it was. -/
theorem slotWord_placeWord_of_ne {m : Memory} (w : m.wf = true) {a c : Slot} (h : c ≠ a) (word : Word) :
    slotWord (placeWord m a word) c = slotWord m c :=
  slotWord_eq_of_read_eq fun _ hj => read_placeWord_outside w a word (slotBase_add_outside h hj)

/-- Settles O40: the byte by `Memory.read_write`, the word by the slot itself and the slots beside it. -/
theorem placedBytesReadBack : Obligations.PlacedBytesReadBack := by
  refine ⟨fun m x y b hm => Memory.read_write hm x y b, fun m a c word hm => ?_⟩
  split
  next h => rw [h, slotWord_placeWord_same hm]
  next h => exact slotWord_placeWord_of_ne hm h word

end Sys2Proof.Machine
end

section
/-! The first and the last move of a run (70_reset_and_hazards R192, R199). -/

namespace Sys2Proof.Machine

/-- The host at the start of a run is the host after reset, but for what the caller supplied, its move and the slots
pending (R21, R192). -/
theorem startRun_host (s : State) : (startRun s).host = { Disassembler.reset with
    options := s.host.options
    escalate := s.host.escalate
    image := s.host.image
    phase := .decode
    pending := allSlots s.host.options.suppressRaw } := rfl

/-- Settles O56: a short image by `step_obtain_short`, which is the reset state's too, a full one by what
`startRun` writes. -/
theorem runStartsByObtainingTheProgram : Obligations.RunStartsByObtainingTheProgram := by
  refine ⟨fun s hphase => ⟨step_obtain_short hphase, fun hfull => ?_⟩, rfl, step_obtain_short rfl (by decide)⟩
  exact ⟨_, step_obtain_full hphase hfull, fun x hx => read_startRun s hx, startRun_host s, rfl⟩

/-- Settles O57: the bound by the canonical form of the buffer (log 2), the release by the move that ends a run. -/
theorem runReleasesWhatItOwns : Obligations.RunReleasesWhatItOwns :=
  ⟨fun _ hm => ⟨Memory.length_of_wfFrom hm, fun _ hx => Memory.read_beyond hm hx⟩, fun _ => step_release⟩

end Sys2Proof.Machine
end
